-- ==== Sys2Proof/Word.lean ====
section
/-! DEFINITION. The two word types of the block: bytes and the 16-bit checksum (spec 00 R9, R14). -/
namespace Sys2Proof

/-- A byte: 8 bits, unsigned (R9). Compared for equality only (R14 b). -/
abbrev Byte := BitVec 8

/-- The 16-bit checksum value (R14 c). -/
abbrev Word16 := BitVec 16

end Sys2Proof
end

