-- ==== Sys2Proof/Machine/Primitives.lean ====
section
/-! DEFINITION. The external primitives as parameters (spec 44, D27): the codecs and the checksum, the contracts the
spec gives them, and the escaping codec, which the spec gives up to three open points (44 R198, R199). -/
namespace Sys2Proof

/-- The encoding in force, `MODE` (00 R7); also the requested one, `MODE_REQ`. -/
inductive Mode where
  | stuff
  | esc
deriving DecidableEq, Repr

namespace Machine

/-- What a decode answers (44 R195, R199; 30 R81): the bytes, a failure, or the report that the output would pass the
maximum. -/
inductive Decoded where
  | ok (bytes : List Byte)
  | fail
  | tooLong
deriving DecidableEq, Repr

/-- The delimiter of an encoding (00 R7). -/
def delimOf : Mode → Byte
  | .stuff => 0x00
  | .esc => 0xC0

/-- The escape byte of the escaping codec (30 R77). -/
def escByte : Byte := 0xDB

/-- The primitives the spec leaves open (44, D27, D33, U3, U16 to U18). -/
structure Primitives where
  /-- `Encode_STUFF`; `none` is a reported failure (43 R172). -/
  encodeStuff : List Byte → Option (List Byte)
  /-- `Decode_STUFF`. -/
  decodeStuff : List Byte → Decoded
  /-- The second byte of `ESC_SEQ_C0`. -/
  escC0 : Byte
  /-- The second byte of `ESC_SEQ_DB`. -/
  escDB : Byte
  /-- What `Decode_ESC` answers on a raw frame outside the encoder's image (44 R199). DESIGN CHOICE (log 16): any answer,
  `ok []` among them, as 44 R199 and 93 U3 allow, though 40 R112 and D12 say that END.EMPTY cannot happen in escaping mode.
  Safe. -/
  decodeEscMalformed : List Byte → Decoded
  /-- `Checksum` (44 R203). -/
  checksum : Word16 → List Byte → Word16

/-- `Encode_ESC` (44 R198): every byte but the two reserved ones stands for itself. -/
def escEncode (c0 db : Byte) : List Byte → List Byte
  | [] => []
  | b :: bs =>
    if b = delimOf .esc then escByte :: c0 :: escEncode c0 db bs
    else if b = escByte then escByte :: db :: escEncode c0 db bs
    else b :: escEncode c0 db bs

/-- The scan of `Decode_ESC` (44 R199); `none` outside the encoder's image. -/
def escScan (c0 db : Byte) : List Byte → Option (List Byte)
  | [] => some []
  | [b] => if b = escByte then none else some [b]
  | b :: c :: rest =>
    if b = escByte then
      if c = c0 then (escScan c0 db rest).map (delimOf .esc :: ·)
      else if c = db then (escScan c0 db rest).map (escByte :: ·)
      else none
    else (escScan c0 db (c :: rest)).map (b :: ·)

/-- `Encode` of the mode in force (44 R195). -/
def Primitives.encode (P : Primitives) : Mode → List Byte → Option (List Byte)
  | .stuff, p => P.encodeStuff p
  | .esc, p => some (escEncode P.escC0 P.escDB p)

/-- `Decode` of the mode in force (44 R195, R199). -/
def Primitives.decode (P : Primitives) : Mode → List Byte → Decoded
  | .stuff, raw => P.decodeStuff raw
  | .esc, raw =>
    match escScan P.escC0 P.escDB raw with
    | some q => .ok q
    | none => P.decodeEscMalformed raw

/-- The contracts of the spec: for the stuffing codec R195 to R197, for the two escape sequences R198, for the checksum
R203. None on `decodeEscMalformed` (DESIGN CHOICE, log 16). -/
structure Primitives.Lawful (P : Primitives) : Prop where
  /-- Payloads of at most 250 bytes are encoded (R196, 43 R172). -/
  stuff_total : ∀ p, p.length ≤ 250 → ∃ r, P.encodeStuff p = some r
  /-- No delimiter in an encoding (R195 i, R196). -/
  stuff_clean : ∀ p r, P.encodeStuff p = some r → (0x00 : Byte) ∉ r
  /-- Decode inverts encode (R195 ii, R197). -/
  stuff_inverse : ∀ p r, P.encodeStuff p = some r → P.decodeStuff r = .ok p
  /-- At most one byte of overhead (R196). -/
  stuff_bound : ∀ p r, P.encodeStuff p = some r → p.length ≤ 250 → r.length ≤ p.length + 1
  /-- The overhead field is always present (R196). -/
  stuff_nonempty : ∀ p r, P.encodeStuff p = some r → 1 ≤ r.length
  /-- A decode adds no byte (R197). -/
  stuff_shrinks : ∀ r q, P.decodeStuff r = .ok q → q.length ≤ r.length
  /-- The two escape sequences are distinct (R198). -/
  esc_distinct : P.escC0 ≠ P.escDB
  /-- Neither escape sequence contains the delimiter (R198). -/
  escC0_clean : P.escC0 ≠ 0xC0
  escDB_clean : P.escDB ≠ 0xC0
  /-- The checksum combines incrementally (R203). -/
  checksum_append : ∀ s a b, P.checksum (P.checksum s a) b = P.checksum s (a ++ b)

/-- `a` and `b` have equal length and differ in exactly one bit. -/
def OneBitApart (a b : List Byte) : Prop :=
  ∃ (pre post : List Byte) (x : Byte) (k : Nat), k < 8 ∧ a = pre ++ x :: post ∧
    b = pre ++ (x ^^^ BitVec.ofNat 8 (2 ^ k)) :: post

/-- The detection requirement (44 R204), a property of the parameter that only claims needing it assume. -/
def Primitives.Detects (P : Primitives) : Prop :=
  ∀ d d', OneBitApart d d' → P.checksum 0xFFFF d ≠ P.checksum 0xFFFF d'

end Machine
end Sys2Proof
end

