-- ==== Sys2Proof/Machine/Reference.lean ====
section
/-! DEFINITION. The reference instantiations of spec 44 section 4 (R200, R201, R205, R206). They are one choice of the
parameters: they show that the contracts can be met, and the tests run the spec's vectors with them. The machine itself
never uses them: it runs on `Config.prims`, which nothing evaluates. -/
namespace Sys2Proof.Machine.Reference

/-- The code byte of a run (R200). -/
def code (run : List Byte) : Byte := BitVec.ofNat 8 (run.length + 1)

/-- `STUFF_REF` encode (R200), the run so far beside the rest. -/
def cobsGo (run : List Byte) : List Byte → List Byte
  | [] => code run :: run
  | b :: bs => if b = 0x00 then code run :: run ++ cobsGo [] bs else cobsGo (run ++ [b]) bs

/-- `STUFF_REF` encode, for payloads of at most 250 bytes (R200). -/
def cobsEncode (p : List Byte) : Option (List Byte) :=
  if p.length ≤ 250 then some (cobsGo [] p) else none

/-- `STUFF_REF` decode inside a block with `n` bytes to go (R200). -/
def cobsBlock : Nat → List Byte → Option (List Byte)
  | 0, [] => some []
  | 0, c :: rest => if c = 0x00 then none else (cobsBlock (c.toNat - 1) rest).map (0x00 :: ·)
  | _ + 1, [] => none
  | n + 1, b :: rest => (cobsBlock n rest).map (b :: ·)

/-- `STUFF_REF` decode (R200). -/
def cobsDecode : List Byte → Decoded
  | [] => .ok []
  | c :: rest =>
    if c = 0x00 then .fail
    else
      match cobsBlock (c.toNat - 1) rest with
      | some q => .ok q
      | none => .fail

/-- `SUM16` (R205). -/
def sum16 (s : Word16) (bytes : List Byte) : Word16 :=
  bytes.foldl (fun c b => c + b.setWidth 16) s

/-- One bit of `CRC16_REF` (R206). -/
def crcBit (c : Word16) : Word16 :=
  if c.getLsbD 15 then (c <<< 1) ^^^ 0x1021 else c <<< 1

/-- One byte of `CRC16_REF` (R206). -/
def crcByte (c : Word16) (b : Byte) : Word16 :=
  crcBit (crcBit (crcBit (crcBit (crcBit (crcBit (crcBit (crcBit (c ^^^ (b.setWidth 16 <<< 8)))))))))

/-- `CRC16_REF` (R206). -/
def crc16 (s : Word16) (bytes : List Byte) : Word16 :=
  bytes.foldl crcByte s

/-- The reference primitives with `SUM16`: `STUFF_REF`, and `ESC_REF` whose malformed input fails (R200, R201, R205). -/
def primitives : Primitives where
  encodeStuff := cobsEncode
  decodeStuff := cobsDecode
  escC0 := 0xDC
  escDB := 0xDD
  decodeEscMalformed := fun _ => .fail
  checksum := sum16

/-- The same with `CRC16_REF` (R206). -/
def primitivesCrc : Primitives := { primitives with checksum := crc16 }

end Sys2Proof.Machine.Reference
end

