-- ==== Sys2Proof/Laws/Reference.lean ====
section
/-! SUPPORT. The reference primitives meet the contracts of spec 44: the contracts are satisfiable, and the opaque
parameter of `Config` has a type that is inhabited. -/
namespace Sys2Proof.Machine.Reference

theorem code_ne_zero {run : List Byte} (h : run.length ≤ 250) : code run ≠ 0x00 := by
  intro hc
  have := congrArg BitVec.toNat hc
  simp [code] at this
  omega

theorem code_toNat {run : List Byte} (h : run.length ≤ 250) : (code run).toNat - 1 = run.length := by
  simp [code]; omega

/-- A block begins with the bytes it announces. -/
theorem cobsBlock_append (l t : List Byte) :
    cobsBlock l.length (l ++ t) = (cobsBlock 0 t).map (l ++ ·) := by
  induction l with
  | nil => simp
  | cons b l ih => simp [cobsBlock, ih, Option.map_map, Function.comp_def]

theorem cobsGo_cons (run p : List Byte) (h : run.length + p.length ≤ 250) :
    ∃ c rest, cobsGo run p = c :: rest ∧ c ≠ 0x00 ∧ cobsBlock (c.toNat - 1) rest = some (run ++ p) := by
  induction p generalizing run with
  | nil =>
    refine ⟨code run, run, by simp [cobsGo], code_ne_zero (by simpa using h), ?_⟩
    rw [code_toNat (by simpa using h)]
    simpa [cobsBlock] using cobsBlock_append run []
  | cons b p ih =>
    simp only [List.length_cons] at h
    by_cases hb : b = 0x00
    · obtain ⟨c, rest, he, hc, hd⟩ := ih [] (by simp; omega)
      refine ⟨code run, run ++ cobsGo [] p, by simp [cobsGo, hb], code_ne_zero (by omega), ?_⟩
      rw [code_toNat (by omega), cobsBlock_append, he]
      simp only [BitVec.ofNat_eq_ofNat] at hc hd hb
      simp [cobsBlock, hc, hd, hb]
    · obtain ⟨c, rest, he, hc, hd⟩ := ih (run ++ [b]) (by simp; omega)
      exact ⟨c, rest, by rw [cobsGo, if_neg hb]; exact he, hc, by simpa using hd⟩

theorem cobsGo_clean (run p : List Byte) (h : run.length + p.length ≤ 250) (hr : (0x00 : Byte) ∉ run) :
    (0x00 : Byte) ∉ cobsGo run p := by
  induction p generalizing run with
  | nil =>
    have := code_ne_zero (run := run) (by simpa using h)
    simp only [cobsGo, List.mem_cons, not_or]
    exact ⟨fun e => this e.symm, hr⟩
  | cons b p ih =>
    simp only [List.length_cons] at h
    by_cases hb : b = 0x00
    · have hc := code_ne_zero (run := run) (by omega)
      have := ih [] (by simp; omega) (by simp)
      simp only [cobsGo, hb, if_true, List.cons_append, List.mem_cons, List.mem_append, not_or]
      exact ⟨fun e => hc e.symm, hr, this⟩
    · simp only [cobsGo, hb, if_false]
      refine ih _ (by simp; omega) ?_
      simp only [List.mem_append, List.mem_singleton, not_or]
      exact ⟨hr, fun e => hb e.symm⟩

theorem cobsGo_length (run p : List Byte) : (cobsGo run p).length = run.length + p.length + 1 := by
  induction p generalizing run with
  | nil => simp [cobsGo]
  | cons b p ih =>
    by_cases hb : b = 0x00
    · simp [cobsGo, hb, ih]
    · simp only [cobsGo, hb, if_false, ih]; simp; omega

theorem cobsBlock_shrinks (n : Nat) (r q : List Byte) (h : cobsBlock n r = some q) : q.length ≤ r.length := by
  induction r generalizing n q with
  | nil => cases n <;> simp_all [cobsBlock]
  | cons c rest ih =>
    cases n with
    | zero =>
      simp only [cobsBlock] at h
      split at h
      · cases h
      · obtain ⟨q', hq, rfl⟩ := Option.map_eq_some_iff.mp h
        simpa using ih _ _ hq
    | succ n =>
      obtain ⟨q', hq, rfl⟩ := Option.map_eq_some_iff.mp h
      simpa using ih _ _ hq

theorem sum16_append (s : Word16) (a b : List Byte) : sum16 (sum16 s a) b = sum16 s (a ++ b) := by
  simp [sum16, List.foldl_append]

theorem cobsEncode_some {p r : List Byte} (h : cobsEncode p = some r) : p.length ≤ 250 ∧ r = cobsGo [] p := by
  simp only [cobsEncode] at h
  split at h
  · exact ⟨‹_›, by simpa using h.symm⟩
  · cases h

/-- The contracts hold of the reference primitives. -/
theorem lawful : primitives.Lawful where
  stuff_total p h := ⟨_, if_pos h⟩
  stuff_clean p r h := by
    obtain ⟨hp, rfl⟩ := cobsEncode_some h
    exact cobsGo_clean [] p (by simpa using hp) (by simp)
  stuff_inverse p r h := by
    obtain ⟨hp, rfl⟩ := cobsEncode_some h
    obtain ⟨c, rest, he, hc, hd⟩ := cobsGo_cons [] p (by simpa using hp)
    simp [primitives, cobsDecode, he, hd] at hc ⊢
    simp [hc]
  stuff_bound p r h _ := by
    obtain ⟨_, rfl⟩ := cobsEncode_some h
    simp [cobsGo_length]
  stuff_nonempty p r h := by
    obtain ⟨_, rfl⟩ := cobsEncode_some h
    simp [cobsGo_length]
  stuff_shrinks r q h := by
    cases r with
    | nil => simp_all [primitives, cobsDecode]
    | cons c rest =>
      simp only [primitives, cobsDecode] at h
      split at h
      · cases h
      · split at h
        · cases h
          exact le_trans (cobsBlock_shrinks _ _ _ ‹_›) (by simp)
        · cases h
  esc_distinct := by decide
  escC0_clean := by decide
  escDB_clean := by decide
  checksum_append := sum16_append

end Sys2Proof.Machine.Reference
end

