-- ==== Sys2Proof/Config.lean ====
section
/-! DEFINITION. What an implementation fixes and the spec leaves open (44, D27): the primitives, as one constant with no
body. Its type carries the contracts, so every claim holds for every implementation that meets them (log 8). The
session's own configuration (LOCAL_ADDR and the rest) is state, written at construction (`Machine/State.lean`). -/
namespace Sys2Proof

/-- Primitives together with their contracts. The default only shows that the type is inhabited. -/
structure LawfulPrimitives where
  pair : { P : Machine.Primitives // P.Lawful } := ⟨Machine.Reference.primitives, Machine.Reference.lawful⟩
deriving Inhabited

/-- The implementation's codecs and checksum. DESIGN CHOICE of form only (log 8): nothing in Lean can evaluate it. -/
opaque Config.external : LawfulPrimitives

/-- The primitives every instruction of the machine uses. -/
abbrev Config.prims : Machine.Primitives := Config.external.pair.val

/-- The contracts of spec 44 hold of them. -/
theorem Config.prims_lawful : Config.prims.Lawful := Config.external.pair.property

end Sys2Proof
end

