-- ==== Sys2Proof/Syntax.lean ====
section
/-! DEFINITION. The instruction set in the sense of spec 00 R5: seven host operations, seven PHY byte events, thirteen
frame-stage outcomes; the formats their words are written in and the operands that stand beside a word. -/
namespace Sys2Proof

/-- The blocking field of a receive command (30 R86). -/
inductive Blk where
  | nonblock
  | block
  | default
deriving DecidableEq, Repr

/-- The seven classes of one PHY step (30 R80). -/
inductive PhyEvent where
  | empty
  | start
  | resync
  | frameEnd
  | append
  | overflow
  | noise
deriving DecidableEq, Repr

/-- What a completed raw frame decodes to, as a class (30 R81). -/
inductive EndOutcome where
  | decodeErr
  | oversize
  | empty
  | ok
deriving DecidableEq, Repr

/-- The MAC stage's classes of a frame (30 R82). -/
inductive MacOutcome where
  | runt
  | drop
  | acceptUni
  | acceptBcast
deriving DecidableEq, Repr

/-- The APP stage's classes of an accepted frame (30 R83). -/
inductive AppOutcome where
  | none
  | runt
  | ckerr
  | srcDrop
  | ok
deriving DecidableEq, Repr

/-- The five formats of the opcode table. A word is read under one of them; which one is told by where the word comes
from (the command port, or the condition vector of a stage) and by no bit of it (30 R84, R87). -/
inductive Format where
  | cmd
  | phyEvent
  | endOutcome
  | macOutcome
  | appOutcome
deriving DecidableEq, Repr

/-- The operands beside a word (30 R87 and the "Operands" of the rules of files 40 to 43). A format that does not use an
operand leaves it at its default. `payload` is the byte sequence of the instruction: the bytes to send, `raw`, `F` or `P`. -/
structure Operands where
  payload : List Byte := []
  size : Nat := 0
  dst : Byte := 0
  src : Byte := 0
  bcast : Bool := false
  expectedSrc : Byte := 0
  /-- Whether `expectedSrc` filters: false for `PKT_RX`, true for `PKT_RX_FROM`. -/
  filtered : Bool := false
deriving DecidableEq, Repr

/-- One row of the opcode table each. A PHY event takes its byte from the transport's queue; an outcome carries the
value it is about (`raw`, `F`, `P`), which is no state of the block (10 R28). -/
inductive Instr where
  | rxPhy (blk : Blk)
  | rxMac (blk : Blk)
  | pktRx (blk : Blk)
  | pktRxFrom (blk : Blk) (expectedSrc : Byte)
  | txPhy (payload : List Byte) (size : Nat)
  | txMac (dst : Byte) (payload : List Byte) (size : Nat)
  | pktTx (dst : Byte) (data : List Byte) (size : Nat)
  | phyEmpty
  | phyStart
  | phyResync
  | phyEnd
  | phyAppend
  | phyOverflow
  | phyNoise
  | endDecodeErr (raw : List Byte)
  | endOversize (raw : List Byte)
  | endEmpty (raw : List Byte)
  | endOk (raw : List Byte)
  | macRunt (f : List Byte)
  | macDrop (f : List Byte)
  | macAcceptUni (f : List Byte)
  | macAcceptBcast (f : List Byte)
  | appNone (p : List Byte)
  | appRunt (p : List Byte)
  | appCkerr (p : List Byte)
  | appSrcDrop (src : Byte) (p : List Byte) (expectedSrc : Byte)
  | appOk (src : Byte) (bcast : Bool) (p : List Byte) (filter : Option Byte)
deriving DecidableEq, Repr

end Sys2Proof
end

