-- ==== Sys2Proof/WellFormed.lean ====
section
/-! DEFINITION. Which terms of `Instr` are instructions the spec has: the conditions on operands that need no state. -/
namespace Sys2Proof

/-- A transmit's `size` counts bytes of its byte sequence (`payload[0..size)`, 43 R170, R174, R175); a raw frame handed
to a frame end is not empty (30 R72); a frame handed to the MAC stage has the length its class asks (30 R82); a payload
handed to the APP stage has the length its class asks, and the source test of the last two classes comes out as the
class says (30 R83). -/
def Instr.wellFormed : Instr → Bool
  | .rxPhy _ | .rxMac _ | .pktRx _ | .pktRxFrom _ _ => true
  | .txPhy payload size => size ≤ payload.length
  | .txMac _ payload size => size ≤ payload.length
  | .pktTx _ data size => size ≤ data.length
  | .phyEmpty | .phyStart | .phyResync | .phyEnd | .phyAppend | .phyOverflow | .phyNoise => true
  | .endDecodeErr raw | .endOversize raw | .endEmpty raw | .endOk raw => 1 ≤ raw.length
  | .macRunt f => f.length = 1
  | .macDrop f | .macAcceptUni f | .macAcceptBcast f => 2 ≤ f.length
  | .appNone p => p.length = 0
  | .appRunt p => p.length = 1
  | .appCkerr p => 2 ≤ p.length
  | .appSrcDrop src p expectedSrc => decide (2 ≤ p.length) && decide (src ≠ expectedSrc)
  | .appOk src _ p filter => decide (2 ≤ p.length) && decide (filter = none ∨ filter = some src)

end Sys2Proof
end

