-- ==== Sys2Proof/Decode.lean ====
section
/-! DEFINITION. From words to instructions and back: the command word (spec 30 R86, R87), the four condition vectors
(30 R84 with the match and mask of spec/opcode_table.json), the encoder, and the host's lookup of a table row. -/
namespace Sys2Proof

/-- A word as the machine reads it: its format, its bits, the operands beside it. -/
structure Code where
  format : Format
  word : Byte
  operands : Operands
deriving DecidableEq, Repr

/-- Why a word is no instruction. -/
inductive Reject where
  /-- `CMD[7:5]` is not 0 (30 R87, U8). -/
  | reservedBits
  /-- `op = 7` (30 R87, U8). -/
  | reservedOp
  /-- `blk = 3` (30 R86, R87, U8). -/
  | reservedBlk
  /-- `blk` is not 0 on a transmit operation (30 R87, U8). -/
  | blkOnTransmit
  /-- A condition vector with a bit above its width (30 R84). -/
  | vectorTooWide
deriving DecidableEq, Repr

/-- The blocking field by its number (30 R86); 3 is reserved. -/
def decodeBlk (v : BitVec 2) : Except Reject Blk :=
  if v = 0 then .ok .nonblock
  else if v = 1 then .ok .block
  else if v = 2 then .ok .default
  else .error .reservedBlk

def encodeBlk : Blk → BitVec 2
  | .nonblock => 0
  | .block => 1
  | .default => 2

/-- A transmit operation takes no blocking field (30 R87). -/
def decodeTransmit (blk : BitVec 2) (i : Instr) : Except Reject Instr :=
  if blk = 0 then .ok i else .error .blkOnTransmit

/-- The command word `CMD[7:0]` (30 R87): `[7:5]` must be 0, `[4:3]` is `blk`, `[2:0]` is `op`. -/
def decodeCommand (w : Byte) (o : Operands) : Except Reject Instr :=
  let op : BitVec 3 := w.extractLsb' 0 3
  let blk : BitVec 2 := w.extractLsb' 3 2
  if w.extractLsb' 5 3 ≠ (0 : BitVec 3) then .error .reservedBits
  else if op = 0 then (decodeBlk blk).map .rxPhy
  else if op = 1 then (decodeBlk blk).map .rxMac
  else if op = 2 then (decodeBlk blk).map .pktRx
  else if op = 3 then (decodeBlk blk).map fun b => .pktRxFrom b o.expectedSrc
  else if op = 4 then decodeTransmit blk (.txPhy o.payload o.size)
  else if op = 5 then decodeTransmit blk (.txMac o.dst o.payload o.size)
  else if op = 6 then decodeTransmit blk (.pktTx o.dst o.payload o.size)
  else .error .reservedOp

/-- `EV[4:0]` to its class, by the match and mask of each row (30 R80, R84). -/
def decodePhyEvent (v : BitVec 5) : PhyEvent :=
  if v &&& 0x10 = 0x00 then .empty
  else if v &&& 0x1C = 0x18 then .start
  else if v &&& 0x1E = 0x1C then .resync
  else if v &&& 0x1E = 0x1E then .frameEnd
  else if v &&& 0x1D = 0x14 then .append
  else if v &&& 0x1D = 0x15 then .overflow
  else .noise

/-- `DV[2:0]` to its class (30 R81, R84). -/
def decodeEndOutcome (v : BitVec 3) : EndOutcome :=
  if v &&& 0x4 = 0x0 then .decodeErr
  else if v &&& 0x6 = 0x6 then .oversize
  else if v &&& 0x7 = 0x5 then .empty
  else .ok

/-- `MV[2:0]` to its class (30 R82, R84). -/
def decodeMacOutcome (v : BitVec 3) : MacOutcome :=
  if v &&& 0x4 = 0x0 then .runt
  else if v &&& 0x7 = 0x4 then .drop
  else if v &&& 0x6 = 0x6 then .acceptUni
  else .acceptBcast

/-- `AV[3:0]` to its class (30 R83, R84). -/
def decodeAppOutcome (v : BitVec 4) : AppOutcome :=
  if v &&& 0x8 = 0x0 then .none
  else if v &&& 0xC = 0x8 then .runt
  else if v &&& 0xE = 0xC then .ckerr
  else if v &&& 0xF = 0xE then .srcDrop
  else .ok

/-- The instruction of a PHY event class. -/
def PhyEvent.toInstr : PhyEvent → Instr
  | .empty => .phyEmpty
  | .start => .phyStart
  | .resync => .phyResync
  | .frameEnd => .phyEnd
  | .append => .phyAppend
  | .overflow => .phyOverflow
  | .noise => .phyNoise

/-- The instruction of a frame-end class; `o.payload` is `raw`. -/
def EndOutcome.toInstr (o : Operands) : EndOutcome → Instr
  | .decodeErr => .endDecodeErr o.payload
  | .oversize => .endOversize o.payload
  | .empty => .endEmpty o.payload
  | .ok => .endOk o.payload

/-- The instruction of a MAC class; `o.payload` is `F`. -/
def MacOutcome.toInstr (o : Operands) : MacOutcome → Instr
  | .runt => .macRunt o.payload
  | .drop => .macDrop o.payload
  | .acceptUni => .macAcceptUni o.payload
  | .acceptBcast => .macAcceptBcast o.payload

/-- The source filter the operands give: none for `PKT_RX`. -/
def Operands.filter (o : Operands) : Option Byte :=
  if o.filtered then some o.expectedSrc else none

/-- The instruction of an APP class; `o.payload` is `P`. -/
def AppOutcome.toInstr (o : Operands) : AppOutcome → Instr
  | .none => .appNone o.payload
  | .runt => .appRunt o.payload
  | .ckerr => .appCkerr o.payload
  | .srcDrop => .appSrcDrop o.src o.payload o.expectedSrc
  | .ok => .appOk o.src o.bcast o.payload o.filter

/-- A condition vector stands in the low `n` bits of its word. -/
def decodeVector (n : Nat) (w : Byte) (k : BitVec n → Instr) : Except Reject Instr :=
  if w.toNat < 2 ^ n then .ok (k (w.setWidth n)) else .error .vectorTooWide

/-- Decoding: total on any word of any format, rejecting by name. -/
def decode (c : Code) : Except Reject Instr :=
  match c.format with
  | .cmd => decodeCommand c.word c.operands
  | .phyEvent => decodeVector 5 c.word fun v => (decodePhyEvent v).toInstr
  | .endOutcome => decodeVector 3 c.word fun v => (decodeEndOutcome v).toInstr c.operands
  | .macOutcome => decodeVector 3 c.word fun v => (decodeMacOutcome v).toInstr c.operands
  | .appOutcome => decodeVector 4 c.word fun v => (decodeAppOutcome v).toInstr c.operands

/-- The command word of an operation number and a blocking field (30 R87). -/
def commandWord (op : BitVec 3) (blk : Blk) : Byte :=
  (0 : BitVec 3) ++ encodeBlk blk ++ op

/-- The operands of a filter. -/
def Operands.ofFilter (src : Byte) (bcast : Bool) (p : List Byte) : Option Byte → Operands
  | none => { payload := p, src := src, bcast := bcast }
  | some e => { payload := p, src := src, bcast := bcast, expectedSrc := e, filtered := true }

/-- The word of an instruction: the command word, or the `match` of the row (its don't-care bits 0). -/
def encode : Instr → Code
  | .rxPhy blk => ⟨.cmd, commandWord 0 blk, {}⟩
  | .rxMac blk => ⟨.cmd, commandWord 1 blk, {}⟩
  | .pktRx blk => ⟨.cmd, commandWord 2 blk, {}⟩
  | .pktRxFrom blk e => ⟨.cmd, commandWord 3 blk, { expectedSrc := e }⟩
  | .txPhy payload size => ⟨.cmd, 0x04, { payload := payload, size := size }⟩
  | .txMac dst payload size => ⟨.cmd, 0x05, { dst := dst, payload := payload, size := size }⟩
  | .pktTx dst data size => ⟨.cmd, 0x06, { dst := dst, payload := data, size := size }⟩
  | .phyEmpty => ⟨.phyEvent, 0x00, {}⟩
  | .phyStart => ⟨.phyEvent, 0x18, {}⟩
  | .phyResync => ⟨.phyEvent, 0x1C, {}⟩
  | .phyEnd => ⟨.phyEvent, 0x1E, {}⟩
  | .phyAppend => ⟨.phyEvent, 0x14, {}⟩
  | .phyOverflow => ⟨.phyEvent, 0x15, {}⟩
  | .phyNoise => ⟨.phyEvent, 0x10, {}⟩
  | .endDecodeErr raw => ⟨.endOutcome, 0x00, { payload := raw }⟩
  | .endOversize raw => ⟨.endOutcome, 0x06, { payload := raw }⟩
  | .endEmpty raw => ⟨.endOutcome, 0x05, { payload := raw }⟩
  | .endOk raw => ⟨.endOutcome, 0x04, { payload := raw }⟩
  | .macRunt f => ⟨.macOutcome, 0x00, { payload := f }⟩
  | .macDrop f => ⟨.macOutcome, 0x04, { payload := f }⟩
  | .macAcceptUni f => ⟨.macOutcome, 0x06, { payload := f }⟩
  | .macAcceptBcast f => ⟨.macOutcome, 0x05, { payload := f }⟩
  | .appNone p => ⟨.appOutcome, 0x00, { payload := p }⟩
  | .appRunt p => ⟨.appOutcome, 0x08, { payload := p }⟩
  | .appCkerr p => ⟨.appOutcome, 0x0C, { payload := p }⟩
  | .appSrcDrop src p e => ⟨.appOutcome, 0x0E, { payload := p, src := src, expectedSrc := e, filtered := true }⟩
  | .appOk src bcast p filter => ⟨.appOutcome, 0x0F, Operands.ofFilter src bcast p filter⟩

/-- The classification rows of spec/opcode_table.json by their `match` words, no operands beside them. -/
def classificationRows : List (Nat × Instr) :=
  [(0x18, .phyStart), (0x1C, .phyResync), (0x1E, .phyEnd), (0x14, .phyAppend), (0x15, .phyOverflow),
   (0x0C, .appCkerr []), (0x0E, .appSrcDrop 0 [] 0), (0x0F, .appOk 0 false [] none)]

/-- `Except` to `Option`. -/
def accepted (r : Except Reject Instr) : Option Instr :=
  match r with
  | .ok i => some i
  | .error _ => none

/-- The host's question about a table row (log 9). The table's five formats overlap: the word 0x00 alone is five rows.
A width that names one format (5: PHY_EVENT; 4: APP_OUTCOME; 3: END_OUTCOME) reads that format. At whole bytes the word
is a command word first; a word the COMMAND port refuses is looked up among the `match` words of the classification
rows, which no command word can be mistaken for. The machine's own command port (`decodeCommand`) knows no such lookup. -/
def decodeTableWord (nbits w : Nat) : Option Instr :=
  let word : Byte := BitVec.ofNat 8 w
  if 256 ≤ w then none
  else if nbits = 5 then accepted (decode ⟨.phyEvent, word, {}⟩)
  else if nbits = 4 then accepted (decode ⟨.appOutcome, word, {}⟩)
  else if nbits = 3 then accepted (decode ⟨.endOutcome, word, {}⟩)
  else
    match decode ⟨.cmd, word, {}⟩ with
    | .ok i => some i
    | .error _ => (classificationRows.find? (fun r => r.1 == w)).map (·.2)

end Sys2Proof
end

