-- ==== Sys2Proof/Machine/State.lean ====
section
/-! DEFINITION. The state of one session (spec 10), its ports and its environment as plain data, the ways a step can
stop, and the state after reset (10 R33, 70 R260, R261). -/
namespace Sys2Proof.Machine

/-- The thirteen error kinds, in the order of their codes (30 R88). -/
inductive ErrorKind where
  | noError
  | oversize
  | checksumError
  | decodeError
  | encodeError
  | timeout
  | writeError
  | readError
  | noData
  | noiseData
  | readSourceIsBroadcast
  | readSourceIsSelf
  | unknown
deriving DecidableEq, Repr

/-- The three layers, each with one error slot (10 R26). -/
inductive Layer where
  | phy
  | mac
  | app
deriving DecidableEq, Repr

/-- The line direction `DIR` (10 R29). -/
inductive Direction where
  | rx
  | tx
deriving DecidableEq, Repr

/-- The result records (00 R12), and what a transmit operation returns: a count (43 R171, R174, R175; D36). -/
inductive Result where
  | none
  | frame (f : List Byte)
  | dropped
  | accept (src : Byte) (bcast : Bool) (p : List Byte)
  | packet (src : Byte) (bcast : Bool) (d : List Byte)
  | err (e : ErrorKind)
  | sent (n : Nat)
deriving DecidableEq, Repr

/-- The receive operations, with the source filter of the packet ones (`none`: `PKT_RX`; 42 R156, R159). -/
inductive RxOp where
  | phy
  | mac
  | pkt (filter : Option Byte)
deriving DecidableEq, Repr

/-- The immutable configuration of the session (10 R21). -/
structure SessionConfig where
  /-- `LOCAL_ADDR`. -/
  localAddr : Byte
  /-- `PAYLOAD_MAX`. -/
  payloadMax : Nat
  /-- `MODE_REQ`. -/
  modeReq : Mode
  /-- `BLOCKING_DEFAULT`. -/
  blockingDefault : Bool
  /-- `TIMEOUT`: accepted, read by no rule (60 R240). -/
  timeout : Nat
  /-- `PHY_DEC_MAX` (00 R7), a field of its own as 90 C1 asks; construction sets it to `PAYLOAD_MAX`. -/
  phyDecMax : Nat
deriving DecidableEq, Repr

/-- A command on the command port (10 R40, 30 R87). -/
structure Command where
  word : Byte
  operands : Operands := {}
deriving DecidableEq, Repr

/-- A call the companion makes on the transport, as the line sees it (43 R171, 44 R193). `reached` is what of `given`
got onto the wire. -/
inductive LineEvent where
  | setTransmit
  | write (given reached : List Byte)
  | flush
  | setReceive
deriving DecidableEq, Repr

/-- What the transport will answer to one `write`: the count it returns and, when that count is short, how many bytes
reached the wire (93 U20: any number up to those given). -/
structure WriteReply where
  count : Nat
  reached : Nat
deriving DecidableEq, Repr

/-- RXBUF as (address, byte) pairs, addresses rising, no cell listed that holds what an unlisted cell reads as. -/
abbrev Memory := List Host.Cell

/-- One session, its ports and its environment. -/
structure State where
  /-- Configuration, read-only after construction (10 R21). -/
  cfg : SessionConfig
  /-- `SYNC` (10 R23). -/
  sync : Bool
  /-- `ACC` (10 R24). -/
  acc : Nat
  /-- `RXBUF` (10 R25). -/
  rxbuf : Memory
  /-- `ERR.PHY` (10 R26). -/
  errPhy : ErrorKind
  /-- `ERR.MAC` (10 R26). -/
  errMac : ErrorKind
  /-- `ERR.APP` (10 R26). -/
  errApp : ErrorKind
  /-- `DIR` (10 R29). -/
  dir : Direction
  /-- The transport's queue of received bytes `Q` (10 R30, 44 R190). -/
  rxQueue : List Byte
  /-- Environment: the bytes the line appends to `Q` before each coming step (44 R194). -/
  arrivals : List (List Byte)
  /-- Command port: the commands the host has issued, oldest first (10 R40). -/
  commands : List Command
  /-- The blocking operation whose loop is under way (40 R115, 41 R137). -/
  pending : Option RxOp
  /-- Result port: the record of the last operation; `none` while there is none (10 R40, 00 R12). -/
  result : Option Result
  /-- Transmit and direction ports: the calls made on the transport, oldest first (43 R171). -/
  lineLog : List LineEvent
  /-- Environment: the transport's answers to the coming writes; when none is listed a write is taken whole (log 7). -/
  writeReplies : List WriteReply
deriving DecidableEq, Repr

/-- Why the machine stops. -/
inductive Fault where
  /-- An access to an index of RXBUF at or above `RX_CAP` (00 R10: "Requires `a < RX_CAP`"). Raised by PHY.APPEND and
  PHY.END in states that break `ACC <= RX_CAP`, which no run from a constructed session reaches. Safe. -/
  | rxbufOutOfRange
deriving DecidableEq, Repr

/-- Why the machine does not accept an instruction, a command or a configuration. -/
inductive Refusal where
  /-- No meaning for the instruction. No arm of `exec` gives it. Safe. -/
  | notModelled (mnemonic : String)
  /-- Raised by `step`: the command word is no command (30 R87, U8: "the model refuses it and no state changes"). Safe. -/
  | reservedCommand (why : Reject)
  /-- Raised by TX_PHY, TX_MAC, PKT_TX: `size` counts bytes that are not there (43 R170: `size = |payload|`). Safe. -/
  | sizeBeyondPayload
  /-- Raised by a PHY event or a stage outcome applied where its class does not apply (30 R80 to R84); `step` performs
  the class that applies and never gives it. Safe. -/
  | classDoesNotApply (mnemonic : String)
  /-- Raised by `construct`: LOCAL_ADDR is 0xFF or PAYLOAD_MAX is below 2 (70 R261, U9, U11). Safe. -/
  | illFormedConfiguration
deriving DecidableEq, Repr

/-- The session right after construction (10 R33), for the configuration of log 1: LOCAL_ADDR 0x02, PAYLOAD_MAX 64 (the
default of 10 R21), MODE_REQ ESC, BLOCKING_DEFAULT false, TIMEOUT 0. Every other configuration is reached by
`construct`. -/
def State.reset : State where
  cfg := { localAddr := 0x02, payloadMax := 64, modeReq := .esc, blockingDefault := false, timeout := 0, phyDecMax := 64 }
  sync := false
  acc := 0
  rxbuf := []
  errPhy := .noError
  errMac := .noError
  errApp := .noError
  dir := .rx
  rxQueue := []
  arrivals := []
  commands := []
  pending := none
  result := none
  lineLog := []
  writeReplies := []

/-- What executing an instruction answers. -/
abbrev Answer := Host.Outcome State Fault Refusal

end Sys2Proof.Machine
end

