-- ==== Sys2Proof/Machine/Derived.lean ====
section
/-! DEFINITION. The derived constants (spec 00 R7), the numbers of the host interface (30 R86, R88, 00 R12), and
session construction (70 R260 to R262). -/
namespace Sys2Proof.Machine

/-- The stuffing mode's raw size, which the fall-back compares with 250 (00 R7, 90 C2). -/
def SessionConfig.stuffSize (c : SessionConfig) : Nat := c.payloadMax + 5

/-- `MODE`: the requested encoding, with the silent fall-back to ESC (00 R7). -/
def SessionConfig.mode (c : SessionConfig) : Mode :=
  match c.modeReq with
  | .esc => .esc
  | .stuff => if 250 < c.stuffSize then .esc else .stuff

/-- `DELIM` (00 R7). -/
def SessionConfig.delim (c : SessionConfig) : Byte := delimOf c.mode

/-- `RX_CAP` (00 R7). -/
def SessionConfig.rxCap (c : SessionConfig) : Nat :=
  match c.mode with
  | .stuff => c.payloadMax + 5
  | .esc => (c.payloadMax + 4) * 2

/-- `MAC_TX_MAX` (00 R7). -/
def SessionConfig.macTxMax (c : SessionConfig) : Nat := c.payloadMax

/-- `APP_TX_MAX` (00 R7); a well-formed configuration has `PAYLOAD_MAX >= 2`. -/
def SessionConfig.appTxMax (c : SessionConfig) : Nat := c.payloadMax - 2

/-- `BCAST` (00 R7). -/
def bcastAddr : Byte := 0xFF

/-- `SEED` (00 R7). -/
def seed : Word16 := 0xFFFF

/-- The configurations construction accepts (10 R21, 70 R261), with `PHY_DEC_MAX = PAYLOAD_MAX` (00 R7). -/
def SessionConfig.wf (c : SessionConfig) : Bool :=
  decide (c.localAddr ≠ bcastAddr) && decide (2 ≤ c.payloadMax) && decide (c.phyDecMax = c.payloadMax)

/-- What the configuration port carries (10 R40). -/
structure Setup where
  localAddr : Byte
  payloadMax : Nat := 64
  modeReq : Mode
  blockingDefault : Bool
  timeout : Nat
deriving DecidableEq, Repr

/-- The configuration registers and `PHY_DEC_MAX` from the configuration port (70 R261 steps 1 and 2). -/
def Setup.config (u : Setup) : SessionConfig where
  localAddr := u.localAddr
  payloadMax := u.payloadMax
  modeReq := u.modeReq
  blockingDefault := u.blockingDefault
  timeout := u.timeout
  phyDecMax := u.payloadMax

/-- Session construction = reset (70 R260, R261): refuses an ill-formed configuration, else gives every item its reset
value (10 R33). It does not touch the transport (70 R262): what `env` has queued, logged and scheduled stays. -/
def construct (u : Setup) (env : State) : Except Refusal State :=
  if u.config.wf then
    .ok { State.reset with
      cfg := u.config, rxQueue := env.rxQueue, arrivals := env.arrivals, lineLog := env.lineLog,
      writeReplies := env.writeReplies }
  else .error .illFormedConfiguration

/-- The code of an error kind on the status port (30 R88). -/
def ErrorKind.code : ErrorKind → Nat
  | .noError => 0
  | .oversize => 1
  | .checksumError => 2
  | .decodeError => 3
  | .encodeError => 4
  | .timeout => 5
  | .writeError => 6
  | .readError => 7
  | .noData => 8
  | .noiseData => 9
  | .readSourceIsBroadcast => 10
  | .readSourceIsSelf => 11
  | .unknown => 12

/-- The advisories (30 R88, 60 R225). -/
def ErrorKind.isAdvisory : ErrorKind → Bool
  | .noiseData | .readSourceIsBroadcast | .readSourceIsSelf => true
  | _ => false

/-- The kinds no rule raises (60 R221). -/
def ErrorKind.isNeverRaised : ErrorKind → Bool
  | .timeout | .readError | .noData | .unknown => true
  | _ => false

/-- `MODE` on the status port (30 R86). -/
def modeCode : Mode → Nat
  | .stuff => 0
  | .esc => 1

/-- The integer view of a result (00 R12, D36). -/
def Result.toInt : Result → Int
  | .none => 0
  | .frame f => f.length
  | .dropped => 0
  | .accept _ _ p => p.length
  | .packet _ _ d => d.length
  | .err _ => -1
  | .sent n => n

/-- The status port (10 R40): what the host reads between steps, without side effect (20 R57). -/
structure Status where
  errPhy : Nat
  errMac : Nat
  errApp : Nat
  sync : Bool
  acc : Nat
  mode : Nat
deriving DecidableEq, Repr

/-- Reading the status port (10 R40, 30 R86, R88). -/
def State.status (s : State) : Status where
  errPhy := s.errPhy.code
  errMac := s.errMac.code
  errApp := s.errApp.code
  sync := s.sync
  acc := s.acc
  mode := modeCode s.cfg.mode

end Sys2Proof.Machine
end

