-- ==== Sys2Proof/Machine/Ops.lean ====
section
/-! DEFINITION. The named operations over the state: RXBUF (spec 20), the error slots with `raise` and `advise` (60 R224,
R225), the transport (44 R190 to R194), the host's port. -/
namespace Sys2Proof.Machine

/-! ### Sequencing -/

/-- Go on from a next state; a stop stays. -/
def andThen (o : Answer) (k : State → Answer) : Answer :=
  match o with
  | .next s => k s
  | .fault f => .fault f
  | .refused r => .refused r

/-- Perform `k` where the class applies, else refuse by the row's name (30 R84: "A class applies when ..."). -/
def whenClass (mnemonic : String) (applies : Bool) (k : Answer) : Answer :=
  if applies then k else .refused (.classDoesNotApply mnemonic)

/-! ### RXBUF (20 R50 to R53) -/

/-- What a cell nobody has written reads as. DESIGN CHOICE 0x00 (log 2): the spec leaves the contents open and no run
reads such a cell. -/
def Memory.unlisted : Byte := 0x00

/-- Canonical form: addresses strictly rising, no cell listed that holds what an unlisted one reads as. -/
abbrev Memory.wf (m : Memory) : Prop :=
  m.Pairwise (fun c d => c.1 < d.1) ∧ ∀ c ∈ m, c.2 ≠ Memory.unlisted

/-- One cell. -/
def Memory.read : Memory → Nat → Byte
  | [], _ => Memory.unlisted
  | c :: m, a => if c.1 = a then c.2 else Memory.read m a

/-- Put a cell in front, unless it holds what an unlisted cell reads as. -/
def Memory.put (a : Nat) (b : Byte) (m : Memory) : Memory :=
  if b = Memory.unlisted then m else (a, b) :: m

/-- Store one byte, keeping the canonical form. -/
def Memory.write : Memory → Nat → Byte → Memory
  | [], a, b => Memory.put a b []
  | c :: m, a, b =>
    if a < c.1 then Memory.put a b (c :: m)
    else if c.1 = a then Memory.put a b m
    else c :: Memory.write m a b

/-- The `n` bytes from `a` on, lowest index first. -/
def Memory.prefixFrom (m : Memory) (a n : Nat) : List Byte :=
  (List.range n).map fun i => Memory.read m (a + i)

/-- `MemRead(RXBUF, a, n)`; requires `a + n <= RX_CAP` (00 R10, 20 R52). -/
def State.memRead (s : State) (a n : Nat) : Option (List Byte) :=
  if a + n ≤ s.cfg.rxCap then some (Memory.prefixFrom s.rxbuf a n) else none

/-- `MemWrite(RXBUF, a, 1, v)`; requires `a < RX_CAP` (00 R10, 20 R51). -/
def State.memWrite (s : State) (a : Nat) (v : Byte) : Option State :=
  if a < s.cfg.rxCap then some { s with rxbuf := Memory.write s.rxbuf a v } else none

/-! ### Error slots and the result port -/

/-- `ERR.L` (10 R26). -/
def State.slot (s : State) : Layer → ErrorKind
  | .phy => s.errPhy
  | .mac => s.errMac
  | .app => s.errApp

/-- `ERR.L <- E`. -/
def State.setSlot (s : State) (l : Layer) (e : ErrorKind) : State :=
  match l with
  | .phy => { s with errPhy := e }
  | .mac => { s with errMac := e }
  | .app => { s with errApp := e }

/-- Drive the result port. -/
def State.respond (s : State) (r : Result) : State := { s with result := some r }

/-- `raise E at L` (00 R10, 60 R224): the slot is written and the operation ends with `ERR(E)`. This is the whole of
taking an exception on this hardware; nothing is saved and nothing is returned from (60 R229). -/
def State.raise (s : State) (l : Layer) (e : ErrorKind) : State := (s.setSlot l e).respond (.err e)

/-- `advise E at L` (00 R10, 60 R225): the slot is written and nothing else. -/
def State.advise (s : State) (l : Layer) (e : ErrorKind) : State := s.setSlot l e

/-- A stage ends with a result and no condition of its own: `ERR.L <- NoError; result <- r`. -/
def State.finish (s : State) (l : Layer) (r : Result) : State := (s.setSlot l .noError).respond r

/-! ### PHY state -/

/-- `SYNC <- true; ACC <- 0`. -/
def State.open (s : State) : State := { s with sync := true, acc := 0 }

/-- `SYNC <- false; ACC <- 0`: back to `NO_SYNC` (10 R32). -/
def State.unsync (s : State) : State := { s with sync := false, acc := 0 }

/-- `ACC <- ACC + 1` (10 R24). -/
def State.advance (s : State) : State := { s with acc := s.acc + 1 }

/-! ### Transport, receive side (44 R191, R192, R194) -/

/-- `available()` (44 R191). -/
def State.available (s : State) : Nat := s.rxQueue.length

/-- `peek()` (44 R190, R193): in the transport's contract; the block never uses it (10 R30) and no definition calls it. -/
def State.peek (s : State) : Option Byte := s.rxQueue.head?

/-- `read()` (44 R192): the oldest byte, which it removes; the sentinel is `none`. -/
def State.read (s : State) : Option Byte × State :=
  (s.rxQueue.head?, { s with rxQueue := s.rxQueue.tail })

/-- The state after `read()`. -/
def State.taken (s : State) : State := s.read.2

/-- The line appends bytes to the tail of `Q` (44 R194). -/
def State.lineAppend (s : State) (bytes : List Byte) : State := { s with rxQueue := s.rxQueue ++ bytes }

/-- Every station on the line hears the same bytes (60 R241). -/
def lineToAll (bytes : List Byte) (stations : List State) : List State :=
  stations.map fun s => s.lineAppend bytes

/-- The arrivals before a step (44 R194). -/
def State.deliver (s : State) : State :=
  match s.arrivals with
  | [] => s
  | batch :: rest => { s.lineAppend batch with arrivals := rest }

/-! ### Transport, transmit side (44 R193, 43 R171 to R173) -/

/-- `set_transmit_mode()`: `DIR <- TX`. -/
def State.setTransmitMode (s : State) : State :=
  { s with dir := .tx, lineLog := s.lineLog ++ [.setTransmit] }

/-- `set_receive_mode()`: `DIR <- RX`. -/
def State.setReceiveMode (s : State) : State :=
  { s with dir := .rx, lineLog := s.lineLog ++ [.setReceive] }

/-- `flush()`: returns when every written byte has left (20 R61). -/
def State.flush (s : State) : State := { s with lineLog := s.lineLog ++ [.flush] }

/-- `write(bytes)` (44 R193): the state after, and the count returned. A count that is not short takes every byte; at a
short one the environment says how many reached the wire (93 U20). -/
def State.write (s : State) (bytes : List Byte) : State × Nat :=
  match s.writeReplies with
  | [] => ({ s with lineLog := s.lineLog ++ [.write bytes bytes] }, bytes.length)
  | r :: rest =>
    if bytes.length ≤ r.count then
      ({ s with lineLog := s.lineLog ++ [.write bytes bytes], writeReplies := rest }, bytes.length)
    else
      ({ s with lineLog := s.lineLog ++ [.write bytes (bytes.take r.reached)], writeReplies := rest }, r.count)

/-- Write the pieces in order, stopping at the first short write (43 R173); whether all were taken. -/
def writeAll : List (List Byte) → State → State × Bool
  | [], s => (s, true)
  | c :: cs, s =>
    let w := s.write c
    if w.2 < c.length then (w.1, false) else writeAll cs w.1

/-- What of a call reached the wire. -/
def LineEvent.onWire : LineEvent → List Byte
  | .write _ reached => reached
  | _ => []

/-- The bytes on the wire, oldest first. -/
def wireOf (log : List LineEvent) : List Byte := log.flatMap LineEvent.onWire

/-! ### Host port -/

/-- The host issues a command (10 R40). -/
def State.issue (s : State) (c : Command) : State := { s with commands := s.commands ++ [c] }

end Sys2Proof.Machine
end

