-- ==== Sys2Proof/Machine/Operands.lean ====
section
/-! DEFINITION. Operand forms: the fields of a decoded frame and of an APP payload (spec 30 R73 to R75), the layouts a
sender builds (30 R70, R93), and the resolution of the blocking field (40 R116). -/
namespace Sys2Proof.Machine

/-- `dst = F[0]` (30 R75); read only where `|F| >= 2`. -/
def frameDst (f : List Byte) : Byte := f.getD 0 0

/-- `src = F[1]` (30 R75). -/
def frameSrc (f : List Byte) : Byte := f.getD 1 0

/-- `P = F[2..L)` (30 R75). -/
def framePayload (f : List Byte) : List Byte := f.drop 2

/-- `D = P[0..m-2)` (30 R75); evaluated only where `m >= 2`. -/
def appData (p : List Byte) : List Byte := p.take (p.length - 2)

/-- High byte first (20 R54). -/
def bigEndian (hi lo : Byte) : Word16 := hi ++ lo

/-- `rx_ck = P[m-2] * 256 + P[m-1]` (30 R75, 20 R54). -/
def rxChecksum (p : List Byte) : Word16 :=
  bigEndian (p.getD (p.length - 2) 0) (p.getD (p.length - 1) 0)

/-- `calc_ck = Checksum(0xFFFF, D)` (30 R75). -/
def calcChecksum (P : Primitives) (p : List Byte) : Word16 := P.checksum seed (appData p)

/-- `[c[15:8], c[7:0]]` (43 R175, 20 R54). -/
def trailer (c : Word16) : List Byte := [c.extractLsb' 8 8, c.extractLsb' 0 8]

/-- `MACFRAME(dst, src, P)` (30 R93, R73). -/
def macFrame (dst src : Byte) (p : List Byte) : List Byte := dst :: src :: p

/-- The MAC payload of a packet: `D ++ [ChecksumHi, ChecksumLo]` (30 R74). -/
def withTrailer (P : Primitives) (d : List Byte) : List Byte := d ++ trailer (P.checksum seed d)

/-- `PKT(dst, src, D)` (30 R93). -/
def packetFrame (P : Primitives) (dst src : Byte) (d : List Byte) : List Byte :=
  macFrame dst src (withTrailer P d)

/-- One frame on the wire around its encoding: `DELIM | raw | DELIM` (30 R70, R93). -/
def wireFrame (delim : Byte) (raw : List Byte) : List Byte := [delim] ++ raw ++ [delim]

/-- Whether a receive command blocks: `DEFAULT` is `BLOCKING_DEFAULT` (40 R116). -/
def blocks (c : SessionConfig) : Blk → Bool
  | .nonblock => false
  | .block => true
  | .default => c.blockingDefault

end Sys2Proof.Machine
end

