-- ==== Sys2Proof/Machine/Flags.lean ====
section
/-! DEFINITION. The condition vectors of spec 30 R84 (this hardware's flags), the classes they select, and the source
advisories (41 R134). -/
namespace Sys2Proof.Machine

/-- Bits to a vector, most significant first (30 R84). -/
def bits3 (a b c : Bool) : BitVec 3 := BitVec.ofBool a ++ BitVec.ofBool b ++ BitVec.ofBool c

def bits4 (a b c d : Bool) : BitVec 4 := bits3 a b c ++ BitVec.ofBool d

def bits5 (a b c d e : Bool) : BitVec 5 := bits4 a b c d ++ BitVec.ofBool e

/-- `EV[4:0]`: a byte is available, it is DELIM, SYNC, ACC > 0, ACC = RX_CAP (30 R84). The queue is observed through
`available()` and `read()` only (10 R30): the byte is the one `read()` answers, and the event's meaning goes on from that
`read()`'s state. -/
def eventVector (s : State) : BitVec 5 :=
  bits5 (decide (0 < s.available)) (decide (s.read.1 = some s.cfg.delim)) s.sync (decide (0 < s.acc))
    (decide (s.acc = s.cfg.rxCap))

/-- The class of a PHY step (30 R80). -/
def phyClass (s : State) : PhyEvent := decodePhyEvent (eventVector s)

/-- `DV[2:0]`: the decode did not fail, its output is too long, it is empty (30 R84). -/
def endVector (c : SessionConfig) : Decoded → BitVec 3
  | .fail => bits3 false false false
  | .tooLong => bits3 true true false
  | .ok f => bits3 true (decide (c.phyDecMax < f.length)) (decide (f.length = 0))

/-- The class of a completed raw frame (30 R81). -/
def endClass (P : Primitives) (c : SessionConfig) (raw : List Byte) : EndOutcome :=
  decodeEndOutcome (endVector c (P.decode c.mode raw))

/-- `MV[2:0]`: two bytes or more, for this station, for all (30 R84). -/
def macVector (c : SessionConfig) (f : List Byte) : BitVec 3 :=
  bits3 (decide (2 ≤ f.length)) (decide (frameDst f = c.localAddr)) (decide (frameDst f = bcastAddr))

/-- The MAC class of a frame (30 R82). -/
def macClass (c : SessionConfig) (f : List Byte) : MacOutcome := decodeMacOutcome (macVector c f)

/-- Whether the source passes: the operation is PKT_RX, or `src = expected_src` (30 R83). -/
def sourcePasses (src : Byte) : Option Byte → Bool
  | none => true
  | some e => decide (src = e)

/-- `AV[3:0]`: a byte or more, two or more, the checksums agree, the source passes (30 R84). -/
def appVector (P : Primitives) (src : Byte) (filter : Option Byte) (p : List Byte) : BitVec 4 :=
  bits4 (decide (1 ≤ p.length)) (decide (2 ≤ p.length)) (decide (rxChecksum p = calcChecksum P p))
    (sourcePasses src filter)

/-- The APP class of an accepted frame (30 R83). -/
def appClass (P : Primitives) (src : Byte) (filter : Option Byte) (p : List Byte) : AppOutcome :=
  decodeAppOutcome (appVector P src filter p)

/-- `advisory(src)`: self before broadcast (41 R134). -/
def advisory (c : SessionConfig) (src : Byte) : ErrorKind :=
  if src = c.localAddr then .readSourceIsSelf
  else if src = bcastAddr then .readSourceIsBroadcast
  else .noError

end Sys2Proof.Machine
end

