-- ==== Sys2Proof/Machine/App.lean ====
section
/-! DEFINITION. The APP receive stage (spec 42): checksum verify, then the source filter. -/
namespace Sys2Proof.Machine

/-- APP.NONE (R151): `ERR.APP <- NoError; result <- NONE`. Its class asks the length alone. -/
def appNone (P : Primitives) (p : List Byte) (s : State) : Answer :=
  whenClass "APP.NONE" (appClass P 0 none p = .none) (.next (s.finish .app .none))

/-- APP.RUNT (R152): `raise ChecksumError at APP`. Its class asks the length alone. -/
def appRunt (P : Primitives) (p : List Byte) (s : State) : Answer :=
  whenClass "APP.RUNT" (appClass P 0 none p = .runt) (.next (s.raise .app .checksumError))

/-- APP.CKERR (R153): `raise ChecksumError at APP`. Its class does not ask the source. -/
def appCkerr (P : Primitives) (p : List Byte) (s : State) : Answer :=
  whenClass "APP.CKERR" (appClass P 0 none p = .ckerr) (.next (s.raise .app .checksumError))

/-- APP.SRC_DROP (R155): `ERR.APP <- NoError; result <- DROPPED`. -/
def appSrcDrop (P : Primitives) (src : Byte) (p : List Byte) (expectedSrc : Byte) (s : State) : Answer :=
  whenClass "APP.SRC_DROP" (appClass P src (some expectedSrc) p = .srcDrop) (.next (s.finish .app .dropped))

/-- APP.OK (R154): `ERR.APP <- NoError; result <- PACKET(src, bcast, D)`. -/
def appOk (P : Primitives) (src : Byte) (bcast : Bool) (p : List Byte) (filter : Option Byte) (s : State) : Answer :=
  whenClass "APP.OK" (appClass P src filter p = .ok) (.next (s.finish .app (.packet src bcast (appData p))))

/-- The source drop of a class that has a filter; without one the class is never `srcDrop` (30 R83). -/
def filteredDrop (P : Primitives) (src : Byte) (p : List Byte) (filter : Option Byte) (s : State) : Answer :=
  match filter with
  | some e => appSrcDrop P src p e s
  | none => .refused (.classDoesNotApply "APP.SRC_DROP")

/-- Exactly one of R151 to R155 (R150). -/
def performApp (P : Primitives) (src : Byte) (bcast : Bool) (p : List Byte) (filter : Option Byte) (s : State) : Answer :=
  match appClass P src filter p with
  | .none => appNone P p s
  | .runt => appRunt P p s
  | .ckerr => appCkerr P p s
  | .srcDrop => filteredDrop P src p filter s
  | .ok => appOk P src bcast p filter s

/-- The stage on the MAC result (R150): an accepted frame is classified, a hard error copied up (R158), `NONE` and
`DROPPED` pass (R157). -/
def appStage (P : Primitives) (filter : Option Byte) (s : State) : Answer :=
  match s.result with
  | some (.accept src bcast p) => performApp P src bcast p filter s
  | some (.err e) => .next (s.raise .app e)
  | some .dropped => .next (s.finish .app .dropped)
  | _ => .next (s.finish .app .none)

/-! ### On the implementation's checksum -/

/-- APP.NONE (R151). -/
def execAppNone (p : List Byte) (s : State) : Answer := appNone Config.prims p s

/-- APP.RUNT (R152). -/
def execAppRunt (p : List Byte) (s : State) : Answer := appRunt Config.prims p s

/-- APP.CKERR (R153). -/
def execAppCkerr (p : List Byte) (s : State) : Answer := appCkerr Config.prims p s

/-- APP.SRC_DROP (R155). -/
def execAppSrcDrop (src : Byte) (p : List Byte) (expectedSrc : Byte) (s : State) : Answer :=
  appSrcDrop Config.prims src p expectedSrc s

/-- APP.OK (R154). -/
def execAppOk (src : Byte) (bcast : Bool) (p : List Byte) (filter : Option Byte) (s : State) : Answer :=
  appOk Config.prims src bcast p filter s

end Sys2Proof.Machine
end

