-- ==== Sys2Proof/Machine/Mac.lean ====
section
/-! DEFINITION. The MAC receive stage (spec 41): destination filter, broadcast detector, source advisories. -/
namespace Sys2Proof.Machine

/-- An accepted frame (41 R133, R138): the advisory goes to `ERR.MAC`, the result is `ACCEPT(src, bcast, P)`. -/
def acceptFrame (bcast : Bool) (f : List Byte) (s : State) : State :=
  (s.advise .mac (advisory s.cfg (frameSrc f))).respond (.accept (frameSrc f) bcast (framePayload f))

/-- MAC.RUNT (R131): `raise DecodeError at MAC`. -/
def execMacRunt (f : List Byte) (s : State) : Answer :=
  whenClass "MAC.RUNT" (macClass s.cfg f = .runt) (.next (s.raise .mac .decodeError))

/-- MAC.DROP (R132): `ERR.MAC <- NoError; result <- DROPPED`. -/
def execMacDrop (f : List Byte) (s : State) : Answer :=
  whenClass "MAC.DROP" (macClass s.cfg f = .drop) (.next (s.finish .mac .dropped))

/-- MAC.ACCEPT_UNI (R133). -/
def execMacAcceptUni (f : List Byte) (s : State) : Answer :=
  whenClass "MAC.ACCEPT_UNI" (macClass s.cfg f = .acceptUni) (.next (acceptFrame false f s))

/-- MAC.ACCEPT_BCAST (R138). -/
def execMacAcceptBcast (f : List Byte) (s : State) : Answer :=
  whenClass "MAC.ACCEPT_BCAST" (macClass s.cfg f = .acceptBcast) (.next (acceptFrame true f s))

/-- Exactly one of R131, R132, R133, R138 (R130). -/
def performMac (f : List Byte) (s : State) : Answer :=
  match macClass s.cfg f with
  | .runt => execMacRunt f s
  | .drop => execMacDrop f s
  | .acceptUni => execMacAcceptUni f s
  | .acceptBcast => execMacAcceptBcast f s

/-- The stage on the PHY result (R130): a frame is classified, a hard error copied up (R136), nothing stays nothing
(R135). -/
def macStage (s : State) : Answer :=
  match s.result with
  | some (.frame f) => performMac f s
  | some (.err e) => .next (s.raise .mac e)
  | _ => .next (s.finish .mac .none)

end Sys2Proof.Machine
end

