-- ==== Sys2Proof/Machine/Phy.lean ====
section
/-! DEFINITION. The PHY receive state machine (spec 40): the four frame-end outcomes, the seven byte events, the step. Each
event is a whole PHY step of its class (R100): it takes the byte it is about. -/
namespace Sys2Proof.Machine

/-! ### Frame-end outcomes (40 R109 to R112); the state is already `{false, 0}` by R104 -/

/-- END.OK (R109): `ERR.PHY <- NoError; result <- FRAME(F)`. -/
def endOk (P : Primitives) (raw : List Byte) (s : State) : Answer :=
  whenClass "END.OK" (endClass P s.cfg raw = .ok)
    (match P.decode s.cfg.mode raw with
      | .ok f => .next (s.finish .phy (.frame f))
      | _ => .refused (.classDoesNotApply "END.OK"))

/-- END.OVERSIZE (R110): `raise Oversize at PHY`. -/
def endOversize (P : Primitives) (raw : List Byte) (s : State) : Answer :=
  whenClass "END.OVERSIZE" (endClass P s.cfg raw = .oversize) (.next (s.raise .phy .oversize))

/-- END.DECODE_ERR (R111): `raise DecodeError at PHY`. -/
def endDecodeErr (P : Primitives) (raw : List Byte) (s : State) : Answer :=
  whenClass "END.DECODE_ERR" (endClass P s.cfg raw = .decodeErr) (.next (s.raise .phy .decodeError))

/-- END.EMPTY (R112): `ERR.PHY <- NoError; result <- NONE`. In either mode: what reaches it in escaping mode is a malformed
raw frame that the codec answers with nothing (DESIGN CHOICE, log 16). -/
def endEmpty (P : Primitives) (raw : List Byte) (s : State) : Answer :=
  whenClass "END.EMPTY" (endClass P s.cfg raw = .empty) (.next (s.finish .phy .none))

/-- Exactly one of R109 to R112 (R104). -/
def performEnd (P : Primitives) (raw : List Byte) (s : State) : Answer :=
  match endClass P s.cfg raw with
  | .ok => endOk P raw s
  | .oversize => endOversize P raw s
  | .decodeErr => endDecodeErr P raw s
  | .empty => endEmpty P raw s

/-! ### Byte events (40 R101 to R107) -/

/-- PHY.EMPTY (R101): nothing is consumed; `ERR.PHY <- NoError; result <- NONE`. -/
def execPhyEmpty (s : State) : Answer :=
  whenClass "PHY.EMPTY" (phyClass s = .empty) (.next (s.finish .phy .none))

/-- PHY.START (R102): `SYNC <- true; ACC <- 0; ERR.PHY <- NoError; result <- NONE`. -/
def execPhyStart (s : State) : Answer :=
  whenClass "PHY.START" (phyClass s = .start) (.next (s.taken.open.finish .phy .none))

/-- PHY.RESYNC (R103): `SYNC <- false; ACC <- 0; ERR.PHY <- NoError; result <- NONE`. -/
def execPhyResync (s : State) : Answer :=
  whenClass "PHY.RESYNC" (phyClass s = .resync) (.next (s.taken.unsync.finish .phy .none))

/-- PHY.END (R104): `raw <- MemRead(RXBUF, 0, ACC); SYNC <- false; ACC <- 0`, then the outcome of `Decode(raw)`. -/
def phyEnd (P : Primitives) (s : State) : Answer :=
  whenClass "PHY.END" (phyClass s = .frameEnd)
    (match s.memRead 0 s.acc with
      | some raw => performEnd P raw s.taken.unsync
      | none => .fault .rxbufOutOfRange)

/-- PHY.APPEND (R105): `MemWrite(RXBUF, ACC, 1, b); ACC <- ACC + 1; ERR.PHY <- NoError; result <- NONE`. -/
def execPhyAppend (s : State) : Answer :=
  whenClass "PHY.APPEND" (phyClass s = .append)
    (match s.read with
      | (some b, s1) =>
        match s1.memWrite s1.acc b with
        | some s2 => .next (s2.advance.finish .phy .none)
        | none => .fault .rxbufOutOfRange
      | (none, _) => .refused (.classDoesNotApply "PHY.APPEND"))

/-- PHY.OVERFLOW (R106): `SYNC <- false; ACC <- 0; raise Oversize at PHY`; the byte is discarded. -/
def execPhyOverflow (s : State) : Answer :=
  whenClass "PHY.OVERFLOW" (phyClass s = .overflow) (.next (s.taken.unsync.raise .phy .oversize))

/-- PHY.NOISE (R107): `advise NoiseData at PHY; result <- NONE`; the byte is discarded. -/
def execPhyNoise (s : State) : Answer :=
  whenClass "PHY.NOISE" (phyClass s = .noise) (.next ((s.taken.advise .phy .noiseData).respond .none))

/-- One PHY step (R100): the class of the input, then exactly one of R101 to R107. -/
def phyStep (P : Primitives) (s : State) : Answer :=
  match phyClass s with
  | .empty => execPhyEmpty s
  | .start => execPhyStart s
  | .resync => execPhyResync s
  | .frameEnd => phyEnd P s
  | .append => execPhyAppend s
  | .overflow => execPhyOverflow s
  | .noise => execPhyNoise s

/-! ### On the implementation's codecs -/

/-- PHY.END (R104). -/
def execPhyEnd (s : State) : Answer := phyEnd Config.prims s

/-- END.OK (R109). -/
def execEndOk (raw : List Byte) (s : State) : Answer := endOk Config.prims raw s

/-- END.OVERSIZE (R110). -/
def execEndOversize (raw : List Byte) (s : State) : Answer := endOversize Config.prims raw s

/-- END.DECODE_ERR (R111). -/
def execEndDecodeErr (raw : List Byte) (s : State) : Answer := endDecodeErr Config.prims raw s

/-- END.EMPTY (R112). -/
def execEndEmpty (raw : List Byte) (s : State) : Answer := endEmpty Config.prims raw s

end Sys2Proof.Machine
end

