-- ==== Sys2Proof/Machine/Receive.lean ====
section
/-! DEFINITION. The four receive operations (spec 40 R113 to R116, 41 R137, R139, 42 R156, R159). -/
namespace Sys2Proof.Machine

/-- The stages above the PHY that an operation runs, each once on the result below it. -/
def upperStages (P : Primitives) (op : RxOp) (s : State) : Answer :=
  match op with
  | .phy => .next s
  | .mac => macStage s
  | .pkt filter => andThen (macStage s) (appStage P filter)

/-- After a PHY step of a receive operation. A blocking one whose PHY result is `NONE` goes round again (40 R115): it
stays pending, with no result yet and the upper slots unwritten (41 R137). Otherwise the upper stages end it. -/
def afterPhy (P : Primitives) (blocking : Bool) (op : RxOp) (s : State) : Answer :=
  if blocking ∧ s.result = some .none then .next { s with pending := some op, result := none }
  else upperStages P op { s with pending := none }

/-- One round of a receive operation: one PHY step and what follows it. Non-blocking, that is the operation (40 R113,
41 R139, 42 R156, R159); blocking, it is one turn of the loop of 40 R115. -/
def receive (P : Primitives) (blk : Blk) (op : RxOp) (s : State) : Answer :=
  andThen (phyStep P s) (afterPhy P (blocks s.cfg blk) op)

/-- RX_PHY (40 R113, R115, R116). -/
def execRxPhy (blk : Blk) (s : State) : Answer := receive Config.prims blk .phy s

/-- RX_MAC (41 R139, R137). -/
def execRxMac (blk : Blk) (s : State) : Answer := receive Config.prims blk .mac s

/-- PKT_RX (42 R156): no source filter. -/
def execPktRx (blk : Blk) (s : State) : Answer := receive Config.prims blk (.pkt none) s

/-- PKT_RX_FROM (42 R159): with the source filter. -/
def execPktRxFrom (blk : Blk) (expectedSrc : Byte) (s : State) : Answer :=
  receive Config.prims blk (.pkt (some expectedSrc)) s

/-- The blocking instruction of an operation. -/
def RxOp.blockingInstr : RxOp → Instr
  | .phy => .rxPhy .block
  | .mac => .rxMac .block
  | .pkt none => .pktRx .block
  | .pkt (some e) => .pktRxFrom .block e

end Sys2Proof.Machine
end

