-- ==== Sys2Proof/Machine/Transmit.lean ====
section
/-! DEFINITION. The companion transmit path (spec 43). It reads and writes no receive state. -/
namespace Sys2Proof.Machine

/-- The bracketed sequence of 43 R171 and R173: transmit direction, three writes, flush, receive direction on every
path; a short write skips the rest and ends in `WriteError`. -/
def putOnLine (raw : List Byte) (s : State) : State :=
  let w := writeAll [[s.cfg.delim], raw, [s.cfg.delim]] s.setTransmitMode
  if w.2 then w.1.flush.setReceiveMode.finish .phy (.sent raw.length)
  else w.1.setReceiveMode.raise .phy .writeError

/-- TX_PHY (43 R170 to R173): size check, encode, put on the line. -/
def txPhy (P : Primitives) (payload : List Byte) (size : Nat) (s : State) : Answer :=
  if s.cfg.rxCap < size then .next (s.raise .phy .oversize)
  else if payload.length < size then .refused .sizeBeyondPayload
  else
    match P.encode s.cfg.mode (payload.take size) with
    | none => .next (s.raise .phy .encodeError)
    | some raw => .next (putOnLine raw s)

/-- What TX_MAC makes of the inner TX_PHY: an error or a non-positive length is `WriteError` (43 R174). -/
def afterTxPhy (size : Nat) (s : State) : Answer :=
  match s.result with
  | some (.sent n) => if 0 < n then .next (s.finish .mac (.sent size)) else .next (s.raise .mac .writeError)
  | _ => .next (s.raise .mac .writeError)

/-- TX_MAC (43 R174). -/
def txMac (P : Primitives) (dst : Byte) (payload : List Byte) (size : Nat) (s : State) : Answer :=
  if s.cfg.macTxMax < size then .next (s.raise .mac .oversize)
  else if payload.length < size then .refused .sizeBeyondPayload
  else andThen (txPhy P (macFrame dst s.cfg.localAddr (payload.take size)) (size + 2) s) (afterTxPhy size)

/-- What PKT_TX makes of the inner TX_MAC: an error is `WriteError` (43 R175). -/
def afterTxMac (size : Nat) (s : State) : Answer :=
  match s.result with
  | some (.err _) => .next (s.raise .app .writeError)
  | _ => .next (s.finish .app (.sent (size + 2)))

/-- PKT_TX (43 R175); `size > PAYLOAD_MAX - 2` is written without a subtraction (00 R14). -/
def pktTx (P : Primitives) (dst : Byte) (data : List Byte) (size : Nat) (s : State) : Answer :=
  if s.cfg.payloadMax < size + 2 then .next (s.raise .app .oversize)
  else if data.length < size then .refused .sizeBeyondPayload
  else andThen (txMac P dst (withTrailer P (data.take size)) (size + 2) s) (afterTxMac size)

/-- TX_PHY (43 R170 to R173). -/
def execTxPhy (payload : List Byte) (size : Nat) (s : State) : Answer := txPhy Config.prims payload size s

/-- TX_MAC (43 R174). -/
def execTxMac (dst : Byte) (payload : List Byte) (size : Nat) (s : State) : Answer :=
  txMac Config.prims dst payload size s

/-- PKT_TX (43 R175). -/
def execPktTx (dst : Byte) (data : List Byte) (size : Nat) (s : State) : Answer :=
  pktTx Config.prims dst data size s

end Sys2Proof.Machine
end

