-- ==== Sys2Proof/Machine/Dispatch.lean ====
section
/-! DEFINITION. One arm per row of the opcode table, each one direct call of that row's meaning. -/
namespace Sys2Proof.Machine

/-- What an instruction does. -/
def exec (i : Instr) (s : State) : Host.Outcome State Fault Refusal :=
  match i with
  | .rxPhy blk => Sys2Proof.Machine.execRxPhy blk s
  | .rxMac blk => Sys2Proof.Machine.execRxMac blk s
  | .pktRx blk => Sys2Proof.Machine.execPktRx blk s
  | .pktRxFrom blk e => Sys2Proof.Machine.execPktRxFrom blk e s
  | .txPhy payload size => Sys2Proof.Machine.execTxPhy payload size s
  | .txMac dst payload size => Sys2Proof.Machine.execTxMac dst payload size s
  | .pktTx dst data size => Sys2Proof.Machine.execPktTx dst data size s
  | .phyEmpty => Sys2Proof.Machine.execPhyEmpty s
  | .phyStart => Sys2Proof.Machine.execPhyStart s
  | .phyResync => Sys2Proof.Machine.execPhyResync s
  | .phyEnd => Sys2Proof.Machine.execPhyEnd s
  | .phyAppend => Sys2Proof.Machine.execPhyAppend s
  | .phyOverflow => Sys2Proof.Machine.execPhyOverflow s
  | .phyNoise => Sys2Proof.Machine.execPhyNoise s
  | .endDecodeErr raw => Sys2Proof.Machine.execEndDecodeErr raw s
  | .endOversize raw => Sys2Proof.Machine.execEndOversize raw s
  | .endEmpty raw => Sys2Proof.Machine.execEndEmpty raw s
  | .endOk raw => Sys2Proof.Machine.execEndOk raw s
  | .macRunt f => Sys2Proof.Machine.execMacRunt f s
  | .macDrop f => Sys2Proof.Machine.execMacDrop f s
  | .macAcceptUni f => Sys2Proof.Machine.execMacAcceptUni f s
  | .macAcceptBcast f => Sys2Proof.Machine.execMacAcceptBcast f s
  | .appNone p => Sys2Proof.Machine.execAppNone p s
  | .appRunt p => Sys2Proof.Machine.execAppRunt p s
  | .appCkerr p => Sys2Proof.Machine.execAppCkerr p s
  | .appSrcDrop src p e => Sys2Proof.Machine.execAppSrcDrop src p e s
  | .appOk src bcast p filter => Sys2Proof.Machine.execAppOk src bcast p filter s

end Sys2Proof.Machine
end

