-- ==== Sys2Proof/Machine/Fetch.lean ====
section
/-! DEFINITION. Where a step takes its instruction from: the blocking operation under way, else the command port; and
how the host places an instruction so that the next step runs it (log 9, log 10). -/
namespace Sys2Proof.Machine

/-- Put a command first on the command port, with no blocking operation under way. -/
def State.withCommand (s : State) (c : Command) : State :=
  { s with pending := none, commands := c :: s.commands }

/-- Put bytes in front of the transport's queue. -/
def State.withBytes (s : State) (bytes : List Byte) : State := { s with rxQueue := bytes ++ s.rxQueue }

/-- A raw frame accumulated and its closing delimiter next. -/
def State.withRawFrame (s : State) (raw : List Byte) : State :=
  { s.withBytes [s.cfg.delim] with
    sync := true
    acc := raw.length
    rxbuf := raw.zipIdx.foldl (fun m c => Memory.write m c.2 c.1) s.rxbuf }

/-- The same for a decoded frame. -/
def State.withFrame (s : State) (f : List Byte) : State :=
  s.withRawFrame ((Config.prims.encode s.cfg.mode f).getD f)

/-- A byte that is not the delimiter of either encoding. -/
def dataByte : Byte := 0x01

/-- A packet payload whose trailer is `c` above the right checksum. -/
def payloadOff (c : Word16) : List Byte := trailer (Config.prims.checksum seed [] + c)

/-- The word to place for bits that are no row's word; bits that do not fit a byte become the reserved word 0xFF. -/
def rejectedWord (w : Nat) : Byte := if w < 256 then BitVec.ofNat 8 w else 0xFF

/-- A state in which the next step performs the row of `i`: a command word of its own for an operation; for a PHY event
or a stage outcome the operation that reaches it, with the PHY state and the queue the class asks for. -/
def State.placed (s : State) (i : Instr) : State :=
  let rxPhy := s.withCommand ⟨0x00, {}⟩
  let rxMac := s.withCommand ⟨0x01, {}⟩
  let pktRx := s.withCommand ⟨0x02, {}⟩
  let delim := s.cfg.delim
  match i with
  | .phyEmpty => { rxPhy with rxQueue := [], arrivals := [] :: s.arrivals }
  | .phyStart => { rxPhy.withBytes [delim] with sync := false, acc := 0 }
  | .phyResync => { rxPhy.withBytes [delim] with sync := true, acc := 0 }
  | .phyEnd => rxPhy.withRawFrame [dataByte]
  | .phyAppend => { rxPhy.withBytes [dataByte] with sync := true, acc := 0 }
  | .phyOverflow => { rxPhy.withBytes [dataByte] with sync := true, acc := s.cfg.rxCap }
  | .phyNoise => { rxPhy.withBytes [dataByte] with sync := false, acc := 0 }
  | .endDecodeErr _ => rxPhy.withRawFrame [escByte]
  | .endOversize _ => rxPhy.withFrame (List.replicate (s.cfg.phyDecMax + 1) dataByte)
  | .endEmpty _ => rxPhy.withFrame []
  | .endOk _ => rxPhy.withFrame [dataByte]
  | .macRunt _ => rxMac.withFrame [s.cfg.localAddr]
  | .macDrop _ => rxMac.withFrame [~~~ s.cfg.localAddr &&& 0x7F, 0]
  | .macAcceptUni _ => rxMac.withFrame [s.cfg.localAddr, 0]
  | .macAcceptBcast _ => rxMac.withFrame [bcastAddr, 0]
  | .appNone _ => pktRx.withFrame [s.cfg.localAddr, 0]
  | .appRunt _ => pktRx.withFrame [s.cfg.localAddr, 0, 0]
  | .appCkerr _ => pktRx.withFrame (macFrame s.cfg.localAddr 0 (payloadOff 1))
  | .appSrcDrop _ _ _ =>
    (s.withCommand ⟨0x03, { expectedSrc := 1 }⟩).withFrame (macFrame s.cfg.localAddr 0 (payloadOff 0))
  | .appOk _ _ _ _ => pktRx.withFrame (macFrame s.cfg.localAddr 0 (payloadOff 0))
  | i => s.withCommand ⟨(encode i).word, (encode i).operands⟩

end Sys2Proof.Machine
end

