-- ==== Sys2Proof/Machine/Step.lean ====
section
/-! DEFINITION. One step of the machine: one non-blocking invocation of one host operation (spec 00 R11, D1), or one turn
of a blocking one (40 R115), after the bytes that arrived since the last step (44 R194). -/
namespace Sys2Proof.Machine

/-- A blocking operation under way takes its next turn; else the oldest command on the port is decoded and run; a word
that is no command is refused (30 R87); with no command the block does nothing (70 R283, log 11). -/
def step (s : State) : Host.Outcome State Fault Refusal :=
  let s := s.deliver
  match s.pending with
  | some op => exec op.blockingInstr s
  | none =>
    match s.commands with
    | [] => .next s
    | c :: rest =>
      match decodeCommand c.word c.operands with
      | .ok i => exec i { s with commands := rest }
      | .error why => .refused (.reservedCommand why)

/-- The host's placing of a table row's word (log 9): the row's instruction where the next step runs it, or, for a word
that is no row's, that word on the command port, where the next step refuses it. -/
def State.withFetchWord (s : State) (nbits w : Nat) : State :=
  match decodeTableWord nbits w with
  | some i => s.placed i
  | none => s.withCommand ⟨rejectedWord w, {}⟩

end Sys2Proof.Machine
end

