-- ==== Sys2Proof/Safety.lean ====
section
/-! DEFINITION. What counts as a good state and a safe run, and the spec's outcome tables as plain functions (spec 10 R31,
40 R108, 42 R161, 60 R221), in the terms the claims use. -/
namespace Sys2Proof.Machine

/-! ### Good states -/

/-- The invariant: RXBUF canonical and inside its cells (20 R58), 10 R31 (i), (ii) and the last clause of (iii), an
accepted configuration (10 R21), the line at rest in receive direction between steps (43 R173). -/
structure State.Inv (s : State) : Prop where
  memory : Memory.wf s.rxbuf
  inside : ∀ c ∈ s.rxbuf, c.1 < s.cfg.rxCap
  accBound : s.acc ≤ s.cfg.rxCap
  idle : s.sync = false → s.acc = 0
  clean : ∀ i, i < s.acc → Memory.read s.rxbuf i ≠ s.cfg.delim
  config : s.cfg.wf = true
  direction : s.dir = .rx

/-- No slot holds a kind that is never raised (60 R221). -/
def State.SlotsRaisable (s : State) : Prop :=
  s.errPhy.isNeverRaised = false ∧ s.errMac.isNeverRaised = false ∧ s.errApp.isNeverRaised = false

/-- `NO_SYNC` (10 R32). -/
def State.NoSync (s : State) : Prop := s.sync = false ∧ s.acc = 0

/-- The commands waiting are commands, with operands that are there (30 R87, 43 R170). -/
def State.CommandsGood (s : State) : Prop :=
  ∀ c ∈ s.commands, ∃ i, decodeCommand c.word c.operands = .ok i ∧ i.wellFormed = true

/-- Two states agree but for RXBUF cells at and above `ACC` (20 R53). -/
def AgreeBelowAcc (s t : State) : Prop :=
  t = { s with rxbuf := t.rxbuf } ∧ ∀ i, i < s.acc → Memory.read t.rxbuf i = Memory.read s.rxbuf i

/-- What two answers have in common when the cells above `ACC` are unobservable. -/
def SameBelowAcc : Answer → Answer → Prop
  | .next s, .next t => AgreeBelowAcc s t
  | .fault f, .fault g => f = g
  | .refused r, .refused q => r = q
  | _, _ => False

/-- The transport takes each piece whole: of each reply only the length of its own piece is asked (43 R173, 44 R193); a
piece with no reply listed is taken whole (log 7). -/
def TakesWhole : List (List Byte) → List WriteReply → Prop
  | [], _ => True
  | _ :: _, [] => True
  | p :: pieces, r :: replies => p.length ≤ r.count ∧ TakesWhole pieces replies

/-- What the line sees when write number `k`, of `piece`, is the first short one: the writes before it whole, that one
as far as it reached, no later write and no flush, receive direction (43 R173). -/
def shortLog (delim : Byte) (raw piece : List Byte) (k reached : Nat) : List LineEvent :=
  [.setTransmit] ++ ([[delim], raw, [delim]].take k).map (fun p => .write p p) ++
    [.write piece (piece.take reached), .setReceive]

/-! ### The outcome tables as plain functions: what a slot and the result become -/

/-- Frame end (40 R109 to R112, 30 R81). -/
def endResult (c : SessionConfig) : Decoded → ErrorKind × Result
  | .fail => (.decodeError, .err .decodeError)
  | .tooLong => (.oversize, .err .oversize)
  | .ok f =>
    if c.phyDecMax < f.length then (.oversize, .err .oversize)
    else if f.length = 0 then (.noError, .none)
    else (.noError, .frame f)

/-- The MAC stage (41 R131 to R136, R138). -/
def macResult (c : SessionConfig) : Option Result → ErrorKind × Result
  | some (.frame f) =>
    if f.length < 2 then (.decodeError, .err .decodeError)
    else if frameDst f = c.localAddr then
      (advisory c (frameSrc f), .accept (frameSrc f) false (framePayload f))
    else if frameDst f = bcastAddr then
      (advisory c (frameSrc f), .accept (frameSrc f) true (framePayload f))
    else (.noError, .dropped)
  | some (.err e) => (e, .err e)
  | _ => (.noError, .none)

/-- The APP stage (42 R151 to R158). -/
def appResult (P : Primitives) (filter : Option Byte) : Option Result → ErrorKind × Result
  | some (.accept src bcast p) =>
    if p.length = 0 then (.noError, .none)
    else if p.length = 1 then (.checksumError, .err .checksumError)
    else if rxChecksum p ≠ P.checksum seed (appData p) then (.checksumError, .err .checksumError)
    else if filter = none ∨ filter = some src then (.noError, .packet src bcast (appData p))
    else (.noError, .dropped)
  | some (.err e) => (e, .err e)
  | some .dropped => (.noError, .dropped)
  | _ => (.noError, .none)

/-- One PHY step by the transition table (40 R108). -/
def phyAfter (P : Primitives) (s : State) : State :=
  match s.rxQueue with
  | [] => { s with errPhy := .noError, result := some .none }
  | b :: q =>
    if b = s.cfg.delim then
      if s.sync = false then
        { s with rxQueue := q, sync := true, acc := 0, errPhy := .noError, result := some .none }
      else if s.acc = 0 then
        { s with rxQueue := q, sync := false, acc := 0, errPhy := .noError, result := some .none }
      else
        let o := endResult s.cfg (P.decode s.cfg.mode (Memory.prefixFrom s.rxbuf 0 s.acc))
        { s with rxQueue := q, sync := false, acc := 0, errPhy := o.1, result := some o.2 }
    else if s.sync = false then { s with rxQueue := q, errPhy := .noiseData, result := some .none }
    else if s.acc = s.cfg.rxCap then
      { s with rxQueue := q, sync := false, acc := 0, errPhy := .oversize, result := some (.err .oversize) }
    else
      { s with
        rxQueue := q, rxbuf := Memory.write s.rxbuf s.acc b, acc := s.acc + 1, errPhy := .noError,
        result := some .none }

/-- The MAC stage on a state. -/
def macAfter (s : State) : State :=
  { s with errMac := (macResult s.cfg s.result).1, result := some (macResult s.cfg s.result).2 }

/-- The APP stage on a state. -/
def appAfter (P : Primitives) (filter : Option Byte) (s : State) : State :=
  { s with errApp := (appResult P filter s.result).1, result := some (appResult P filter s.result).2 }

/-- The upper stages of an operation on a state. -/
def upperAfter (P : Primitives) (op : RxOp) (s : State) : State :=
  match op with
  | .phy => s
  | .mac => macAfter s
  | .pkt filter => appAfter P filter (macAfter s)

/-- The instruction of a receive operation with a blocking field. -/
def RxOp.instr (blk : Blk) : RxOp → Instr
  | .phy => .rxPhy blk
  | .mac => .rxMac blk
  | .pkt none => .pktRx blk
  | .pkt (some e) => .pktRxFrom blk e

/-- The instructions a command word can give (30 R87). -/
def IsOperation (i : Instr) : Prop :=
  (∃ op blk, i = RxOp.instr blk op) ∨ (∃ payload size, i = .txPhy payload size) ∨
  (∃ dst payload size, i = .txMac dst payload size) ∨ ∃ dst data size, i = .pktTx dst data size

/-! ### Runs over a byte stream -/

/-- What the host sees of one step: the result, `ERR.PHY`, `SYNC`, `ACC` (10 R40). -/
abbrev Seen := Option Result × ErrorKind × Bool × Nat

/-- `n` non-blocking RX_PHY operations in a row: what the host saw, in order, and the state after. -/
def receiveRun : Nat → State → Option (List Seen × State)
  | 0, s => some ([], s)
  | n + 1, s =>
    match exec (.rxPhy .nonblock) s with
    | .next t => (receiveRun n t).map fun r => ((t.result, t.errPhy, t.sync, t.acc) :: r.1, r.2)
    | _ => none

end Sys2Proof.Machine
end

