-- ==== Sys2Proof/Certificates/Slice0/Obligations.lean ====
section
/-! DEFINITION. What is claimed of the machine, rule by rule of the spec. Each docstring names the rules it formalises. -/

open Sys2Proof Sys2Proof.Machine

/-! ### The machine: fetching, decoding, reset -/

/-- A step that finds a command and no blocking operation under way runs the decoded instruction, on the state after the
arrivals with the command taken off the port (00 R11, 44 R194; the queue of commands: log 4). -/
def Obligations.StepRunsDecodedCommand : Prop :=
  ∀ (s : State) (c : Command) (rest : List Command) (i : Instr),
    s.pending = none → s.commands = c :: rest → decode ⟨.cmd, c.word, c.operands⟩ = .ok i →
    step s = exec i { s with
      rxQueue := s.rxQueue ++ s.arrivals.headD [], arrivals := s.arrivals.tail, commands := rest }

/-- A step under way with a blocking operation takes that operation's next turn and leaves the command port (40 R115;
log 6). -/
def Obligations.StepContinuesBlockingOperation : Prop :=
  ∀ (s : State) (op : RxOp), s.pending = some op →
    step s = exec (op.instr .block) { s with
      rxQueue := s.rxQueue ++ s.arrivals.headD [], arrivals := s.arrivals.tail }

/-- With nothing under way and no command a step only takes the arrivals (log 11, the model's choice). -/
def Obligations.StepWithoutCommand : Prop :=
  ∀ (s : State), s.pending = none → s.commands = [] →
    step s = .next { s with rxQueue := s.rxQueue ++ s.arrivals.headD [], arrivals := s.arrivals.tail }

/-- The reserved command words are those with `CMD[7:5]` not 0, `op = 7`, `blk = 3`, or `blk` not 0 on a transmit
operation; no others; and a step that finds one refuses it (30 R87). -/
def Obligations.ReservedCommandsRefused : Prop :=
  (∀ (w : Byte) (o : Operands),
    (∃ why, decode ⟨.cmd, w, o⟩ = .error why) ↔
      (w.toNat / 32 ≠ 0 ∨ w.toNat % 8 = 7 ∨ w.toNat / 8 % 4 = 3 ∨ (4 ≤ w.toNat % 8 ∧ w.toNat / 8 % 4 ≠ 0))) ∧
  ∀ (s : State) (c : Command) (rest : List Command) (why : Reject),
    s.pending = none → s.commands = c :: rest → decode ⟨.cmd, c.word, c.operands⟩ = .error why →
    step s = .refused (.reservedCommand why)

/-- Words of every format, written out from 30 R84 and R87 and 95 section 6. -/
def Obligations.SampleWordsDecode : Prop :=
  decode ⟨.cmd, 0b00001000, {}⟩ = .ok (.rxPhy .block) ∧
  decode ⟨.cmd, 0b00010001, {}⟩ = .ok (.rxMac .default) ∧
  decode ⟨.cmd, 0b00001011, { expectedSrc := 0x05 }⟩ = .ok (.pktRxFrom .block 0x05) ∧
  decode ⟨.cmd, 0b00000110, { dst := 0x02, payload := [0x48, 0x49], size := 2 }⟩ = .ok (.pktTx 0x02 [0x48, 0x49] 2) ∧
  decode ⟨.phyEvent, 0b10100, {}⟩ = .ok .phyAppend ∧
  decode ⟨.phyEvent, 0b10111, {}⟩ = .ok .phyOverflow ∧
  decode ⟨.endOutcome, 0b101, { payload := [0x01] }⟩ = .ok (.endEmpty [0x01]) ∧
  decode ⟨.macOutcome, 0b110, { payload := [0x02, 0x01] }⟩ = .ok (.macAcceptUni [0x02, 0x01]) ∧
  decode ⟨.appOutcome, 0b1101, { payload := [0xFF, 0xFE] }⟩ = .ok (.appCkerr [0xFF, 0xFE])

/-- Decoding the word of any well-formed instruction gives that instruction back, with every operand. -/
def Obligations.DecodeEncode : Prop :=
  ∀ (i : Instr), i.wellFormed = true → decode (encode i) = .ok i

/-- Every word of a vector format selects the class whose row's match and mask it fits, and only that one (30 R84 with
the opcode table). -/
def Obligations.VectorRows : Prop :=
  (∀ v : BitVec 5,
    (decodePhyEvent v = .empty ↔ v &&& 0x10 = 0x00) ∧ (decodePhyEvent v = .start ↔ v &&& 0x1C = 0x18) ∧
    (decodePhyEvent v = .resync ↔ v &&& 0x1E = 0x1C) ∧ (decodePhyEvent v = .frameEnd ↔ v &&& 0x1E = 0x1E) ∧
    (decodePhyEvent v = .append ↔ v &&& 0x1D = 0x14) ∧ (decodePhyEvent v = .overflow ↔ v &&& 0x1D = 0x15) ∧
    (decodePhyEvent v = .noise ↔ v &&& 0x1C = 0x10)) ∧
  (∀ v : BitVec 3,
    (decodeEndOutcome v = .decodeErr ↔ v &&& 0x4 = 0x0) ∧ (decodeEndOutcome v = .oversize ↔ v &&& 0x6 = 0x6) ∧
    (decodeEndOutcome v = .empty ↔ v &&& 0x7 = 0x5) ∧ (decodeEndOutcome v = .ok ↔ v &&& 0x7 = 0x4)) ∧
  (∀ v : BitVec 3,
    (decodeMacOutcome v = .runt ↔ v &&& 0x4 = 0x0) ∧ (decodeMacOutcome v = .drop ↔ v &&& 0x7 = 0x4) ∧
    (decodeMacOutcome v = .acceptUni ↔ v &&& 0x6 = 0x6) ∧ (decodeMacOutcome v = .acceptBcast ↔ v &&& 0x7 = 0x5)) ∧
  (∀ v : BitVec 4,
    (decodeAppOutcome v = .none ↔ v &&& 0x8 = 0x0) ∧ (decodeAppOutcome v = .runt ↔ v &&& 0xC = 0x8) ∧
    (decodeAppOutcome v = .ckerr ↔ v &&& 0xE = 0xC) ∧ (decodeAppOutcome v = .srcDrop ↔ v &&& 0xF = 0xE) ∧
    (decodeAppOutcome v = .ok ↔ v &&& 0xF = 0xF))

/-- The PHY classification is the table of 30 R80. -/
def Obligations.PhyEventClassification : Prop :=
  ∀ (s : State), s.acc ≤ s.cfg.rxCap →
    (phyClass s = .empty ↔ s.rxQueue = []) ∧
    (phyClass s = .start ↔ s.rxQueue.head? = some s.cfg.delim ∧ s.sync = false) ∧
    (phyClass s = .resync ↔ s.rxQueue.head? = some s.cfg.delim ∧ s.sync = true ∧ s.acc = 0) ∧
    (phyClass s = .frameEnd ↔ s.rxQueue.head? = some s.cfg.delim ∧ s.sync = true ∧ 0 < s.acc) ∧
    (phyClass s = .append ↔
      (∃ b, s.rxQueue.head? = some b ∧ b ≠ s.cfg.delim) ∧ s.sync = true ∧ s.acc < s.cfg.rxCap) ∧
    (phyClass s = .overflow ↔
      (∃ b, s.rxQueue.head? = some b ∧ b ≠ s.cfg.delim) ∧ s.sync = true ∧ s.acc = s.cfg.rxCap) ∧
    (phyClass s = .noise ↔ (∃ b, s.rxQueue.head? = some b ∧ b ≠ s.cfg.delim) ∧ s.sync = false)

/-- The frame-end, MAC and APP classifications are the tables of 30 R81, R82, R83, for any codec and checksum. -/
def Obligations.StageClassification : Prop :=
  ∀ (P : Primitives) (c : SessionConfig) (bytes : List Byte) (src : Byte) (filter : Option Byte),
    c.localAddr ≠ 0xFF →
    ((endClass P c bytes = .decodeErr ↔ P.decode c.mode bytes = .fail) ∧
     (endClass P c bytes = .oversize ↔
        P.decode c.mode bytes = .tooLong ∨ ∃ f, P.decode c.mode bytes = .ok f ∧ c.phyDecMax < f.length) ∧
     (endClass P c bytes = .ok ↔
        ∃ f, P.decode c.mode bytes = .ok f ∧ 1 ≤ f.length ∧ f.length ≤ c.phyDecMax) ∧
     (endClass P c bytes = .empty ↔ P.decode c.mode bytes = .ok [])) ∧
    ((macClass c bytes = .runt ↔ bytes.length < 2) ∧
     (macClass c bytes = .drop ↔
        2 ≤ bytes.length ∧ bytes[0]? ≠ some c.localAddr ∧ bytes[0]? ≠ some 0xFF) ∧
     (macClass c bytes = .acceptUni ↔ 2 ≤ bytes.length ∧ bytes[0]? = some c.localAddr) ∧
     (macClass c bytes = .acceptBcast ↔ 2 ≤ bytes.length ∧ bytes[0]? = some 0xFF)) ∧
    ((appClass P src filter bytes = .none ↔ bytes.length = 0) ∧
     (appClass P src filter bytes = .runt ↔ bytes.length = 1) ∧
     (appClass P src filter bytes = .ckerr ↔
        2 ≤ bytes.length ∧ rxChecksum bytes ≠ calcChecksum P bytes) ∧
     (appClass P src filter bytes = .srcDrop ↔
        2 ≤ bytes.length ∧ rxChecksum bytes = calcChecksum P bytes ∧ ∃ e, filter = some e ∧ src ≠ e) ∧
     (appClass P src filter bytes = .ok ↔
        2 ≤ bytes.length ∧ rxChecksum bytes = calcChecksum P bytes ∧ (filter = none ∨ filter = some src)))

/-- The fields of a payload with a trailer: `D`, and the checksum high byte first (30 R75, 20 R54). -/
def Obligations.TrailerBigEndian : Prop :=
  (∀ (d : List Byte) (hi lo : Byte),
    appData (d ++ [hi, lo]) = d ∧ (rxChecksum (d ++ [hi, lo])).toNat = hi.toNat * 256 + lo.toNat) ∧
  ∀ (d : List Byte) (c : Word16), rxChecksum (d ++ trailer c) = c

/-- Construction refuses `LOCAL_ADDR = 0xFF` and `PAYLOAD_MAX < 2`, and accepts every other configuration (70 R261,
10 R21). -/
def Obligations.ConstructionRefusal : Prop :=
  ∀ (u : Setup) (env : State),
    (u.localAddr = 0xFF ∨ u.payloadMax < 2 → construct u env = .error .illFormedConfiguration) ∧
    (u.localAddr ≠ 0xFF → 2 ≤ u.payloadMax → ∃ t, construct u env = .ok t)

/-- What construction leaves (10 R33), the transport untouched (70 R262). -/
def Obligations.ResetValues : Prop :=
  ∀ (u : Setup) (env t : State), construct u env = .ok t →
    t.sync = false ∧ t.acc = 0 ∧ t.errPhy = .noError ∧ t.errMac = .noError ∧ t.errApp = .noError ∧ t.dir = .rx ∧
    t.cfg.localAddr = u.localAddr ∧ t.cfg.payloadMax = u.payloadMax ∧ t.cfg.modeReq = u.modeReq ∧
    t.cfg.blockingDefault = u.blockingDefault ∧ t.cfg.timeout = u.timeout ∧ t.cfg.phyDecMax = u.payloadMax ∧
    t.rxQueue = env.rxQueue ∧ t.arrivals = env.arrivals ∧ t.lineLog = env.lineLog ∧
    t.writeReplies = env.writeReplies

/-- Every constructed session, and the model's reset state, is a good state. -/
def Obligations.InvAtReset : Prop :=
  State.reset.Inv ∧ ∀ (u : Setup) (env t : State), construct u env = .ok t → t.Inv

/-- The derived constants for every configuration (00 R7), `PHY_DEC_MAX` by construction. -/
def Obligations.DerivedConstants : Prop :=
  (∀ c : SessionConfig,
    (c.mode = .esc ↔ c.modeReq = .esc ∨ (c.modeReq = .stuff ∧ 250 < c.payloadMax + 5)) ∧
    (c.mode = .stuff → c.delim = 0x00 ∧ c.rxCap = c.payloadMax + 5) ∧
    (c.mode = .esc → c.delim = 0xC0 ∧ c.rxCap = (c.payloadMax + 4) * 2) ∧
    c.macTxMax = c.payloadMax ∧ c.appTxMax = c.payloadMax - 2) ∧
  (∀ u : Setup, u.config.phyDecMax = u.payloadMax) ∧ bcastAddr = 0xFF ∧ seed = 0xFFFF

/-- What the host reads as numbers: the integer view of the receive records (00 R12); the status port, which shows the
three slots, SYNC, ACC and MODE as they stand (10 R40, 20 R57), the codes 0 to 12 and the classes of the error kinds
(30 R88), the numbers of MODE and of the blocking field (30 R86). -/
def Obligations.IntegerViewAndStatusPort : Prop :=
  (Result.none.toInt = 0 ∧ Result.dropped.toInt = 0 ∧ (∀ e, (Result.err e).toInt = -1) ∧
   (∀ f, (Result.frame f).toInt = (f.length : Int)) ∧
   (∀ src bcast p, (Result.accept src bcast p).toInt = (p.length : Int)) ∧
   ∀ src bcast d, (Result.packet src bcast d).toInt = (d.length : Int)) ∧
  (∀ s : State,
    s.status.errPhy = s.errPhy.code ∧ s.status.errMac = s.errMac.code ∧ s.status.errApp = s.errApp.code ∧
    s.status.sync = s.sync ∧ s.status.acc = s.acc ∧ s.status.mode = modeCode s.cfg.mode) ∧
  ([ErrorKind.noError, .oversize, .checksumError, .decodeError, .encodeError, .timeout, .writeError, .readError, .noData,
      .noiseData, .readSourceIsBroadcast, .readSourceIsSelf, .unknown].map ErrorKind.code = List.range 13) ∧
  (∀ e : ErrorKind, e.isAdvisory = true ↔ e = .noiseData ∨ e = .readSourceIsBroadcast ∨ e = .readSourceIsSelf) ∧
  (∀ e : ErrorKind, e.isNeverRaised = true ↔ e = .timeout ∨ e = .readError ∨ e = .noData ∨ e = .unknown) ∧
  (modeCode .stuff = 0 ∧ modeCode .esc = 1) ∧
  (decodeBlk 0 = .ok .nonblock ∧ decodeBlk 1 = .ok .block ∧ decodeBlk 2 = .ok .default ∧
   decodeBlk 3 = .error .reservedBlk)

/-! ### PHY byte events (40 R101 to R107). Each gives the whole next state, so also everything that is unchanged. -/

/-- PHY.EMPTY (40 R101). -/
def Obligations.PhyEmpty : Prop :=
  ∀ (s : State), s.rxQueue = [] →
    exec .phyEmpty s = .next { s with errPhy := .noError, result := some .none }

/-- PHY.START (40 R102). -/
def Obligations.PhyStart : Prop :=
  ∀ (s : State) (q : List Byte), s.rxQueue = s.cfg.delim :: q → s.sync = false →
    exec .phyStart s = .next { s with rxQueue := q, sync := true, acc := 0, errPhy := .noError, result := some .none }

/-- PHY.RESYNC (40 R103). -/
def Obligations.PhyResync : Prop :=
  ∀ (s : State) (q : List Byte), s.rxQueue = s.cfg.delim :: q → s.sync = true → s.acc = 0 →
    exec .phyResync s =
      .next { s with rxQueue := q, sync := false, acc := 0, errPhy := .noError, result := some .none }

/-- PHY.END (40 R104): the accumulated bytes go to `Decode`, the state is `{false, 0}` in every outcome, and the outcome is
that of 30 R81 (40 R109 to R112). -/
def Obligations.PhyEnd : Prop :=
  ∀ (s : State) (q raw : List Byte), s.rxQueue = s.cfg.delim :: q → s.sync = true → 0 < s.acc → s.acc ≤ s.cfg.rxCap →
    raw.length = s.acc → (∀ i, i < s.acc → raw[i]? = some (Memory.read s.rxbuf i)) →
    exec .phyEnd s = .next { s with
      rxQueue := q, sync := false, acc := 0
      errPhy := (endResult s.cfg (Config.prims.decode s.cfg.mode raw)).1
      result := some (endResult s.cfg (Config.prims.decode s.cfg.mode raw)).2 }

/-- PHY.APPEND (40 R105): the byte is stored at `ACC` and every other cell of RXBUF reads as before. -/
def Obligations.PhyAppend : Prop :=
  ∀ (s : State) (b : Byte) (q : List Byte), s.rxQueue = b :: q → b ≠ s.cfg.delim → s.sync = true →
    s.acc < s.cfg.rxCap → Memory.wf s.rxbuf →
    ∃ m : Memory,
      exec .phyAppend s = .next { s with
        rxQueue := q, rxbuf := m, acc := s.acc + 1, errPhy := .noError, result := some .none } ∧
      Memory.wf m ∧ Memory.read m s.acc = b ∧ ∀ a, a ≠ s.acc → Memory.read m a = Memory.read s.rxbuf a

/-- PHY.OVERFLOW (40 R106). -/
def Obligations.PhyOverflow : Prop :=
  ∀ (s : State) (b : Byte) (q : List Byte), s.rxQueue = b :: q → b ≠ s.cfg.delim → s.sync = true →
    s.acc = s.cfg.rxCap →
    exec .phyOverflow s = .next { s with
      rxQueue := q, sync := false, acc := 0, errPhy := .oversize, result := some (.err .oversize) }

/-- PHY.NOISE (40 R107). -/
def Obligations.PhyNoise : Prop :=
  ∀ (s : State) (b : Byte) (q : List Byte), s.rxQueue = b :: q → b ≠ s.cfg.delim → s.sync = false →
    exec .phyNoise s = .next { s with rxQueue := q, errPhy := .noiseData, result := some .none }

/-! ### Frame-end outcomes (40 R109 to R112) -/

/-- END.OK (40 R109). -/
def Obligations.EndOk : Prop :=
  ∀ (s : State) (raw f : List Byte), Config.prims.decode s.cfg.mode raw = .ok f → 1 ≤ f.length →
    f.length ≤ s.cfg.phyDecMax →
    exec (.endOk raw) s = .next { s with errPhy := .noError, result := some (.frame f) }

/-- END.OVERSIZE (40 R110): too long by the PHY's comparison or by the codec's own report, one outcome. The codec's report
is stated for every codec, since the contracts promise none. -/
def Obligations.EndOversize : Prop :=
  (∀ (s : State) (raw f : List Byte), Config.prims.decode s.cfg.mode raw = .ok f → s.cfg.phyDecMax < f.length →
    exec (.endOversize raw) s = .next { s with errPhy := .oversize, result := some (.err .oversize) }) ∧
  (∀ (P : Primitives) (s : State) (raw : List Byte), P.decode s.cfg.mode raw = .tooLong →
    endOversize P raw s = .next { s with errPhy := .oversize, result := some (.err .oversize) }) ∧
  ∀ (s : State) (raw : List Byte), exec (.endOversize raw) s = endOversize Config.prims raw s

/-- END.DECODE_ERR (40 R111): where the decode fails, DecodeError is raised at the PHY and the instruction completes,
stated for every codec; the instruction is that meaning at the machine's own codec, of which no raw frame is known to
fail (44 R197, R199: what a codec answers outside its encoder's image is open), and where its decode does not fail the
class does not apply (log 12). -/
def Obligations.EndDecodeErr : Prop :=
  (∀ (P : Primitives) (s : State) (raw : List Byte), P.decode s.cfg.mode raw = .fail →
    endDecodeErr P raw s = .next { s with errPhy := .decodeError, result := some (.err .decodeError) }) ∧
  ∀ (s : State) (raw : List Byte),
    exec (.endDecodeErr raw) s =
      match Config.prims.decode s.cfg.mode raw with
      | .fail => .next { s with errPhy := .decodeError, result := some (.err .decodeError) }
      | .ok _ => .refused (.classDoesNotApply "END.DECODE_ERR")
      | .tooLong => .refused (.classDoesNotApply "END.DECODE_ERR")

/-- END.EMPTY (40 R112). -/
def Obligations.EndEmpty : Prop :=
  ∀ (s : State) (raw : List Byte), Config.prims.decode s.cfg.mode raw = .ok [] →
    exec (.endEmpty raw) s = .next { s with errPhy := .noError, result := some .none }

/-! ### MAC outcomes (41 R131 to R134, R138) -/

/-- MAC.RUNT (41 R131). -/
def Obligations.MacRunt : Prop :=
  ∀ (s : State) (b : Byte),
    exec (.macRunt [b]) s = .next { s with errMac := .decodeError, result := some (.err .decodeError) }

/-- MAC.DROP (41 R132): whatever the source byte, no advisory. -/
def Obligations.MacDrop : Prop :=
  ∀ (s : State) (dst src : Byte) (p : List Byte), dst ≠ s.cfg.localAddr → dst ≠ 0xFF →
    exec (.macDrop (dst :: src :: p)) s = .next { s with errMac := .noError, result := some .dropped }

/-- MAC.ACCEPT_UNI with its advisories (41 R133, R134). -/
def Obligations.MacAcceptUni : Prop :=
  ∀ (s : State) (src : Byte) (p : List Byte), s.cfg.localAddr ≠ 0xFF →
    exec (.macAcceptUni (s.cfg.localAddr :: src :: p)) s = .next { s with
      errMac :=
        if src = s.cfg.localAddr then .readSourceIsSelf else if src = 0xFF then .readSourceIsBroadcast else .noError
      result := some (.accept src false p) }

/-- MAC.ACCEPT_BCAST with its advisories (41 R138, R134). -/
def Obligations.MacAcceptBcast : Prop :=
  ∀ (s : State) (src : Byte) (p : List Byte), s.cfg.localAddr ≠ 0xFF →
    exec (.macAcceptBcast (0xFF :: src :: p)) s = .next { s with
      errMac :=
        if src = s.cfg.localAddr then .readSourceIsSelf else if src = 0xFF then .readSourceIsBroadcast else .noError
      result := some (.accept src true p) }

/-! ### APP outcomes (42 R151 to R155) -/

/-- APP.NONE and APP.RUNT (42 R151, R152). -/
def Obligations.AppShort : Prop :=
  (∀ (s : State), exec (.appNone []) s = .next { s with errApp := .noError, result := some .none }) ∧
  ∀ (s : State) (b : Byte),
    exec (.appRunt [b]) s = .next { s with errApp := .checksumError, result := some (.err .checksumError) }

/-- APP.CKERR (42 R153). -/
def Obligations.AppCkerr : Prop :=
  ∀ (s : State) (d : List Byte) (hi lo : Byte),
    hi.toNat * 256 + lo.toNat ≠ (Config.prims.checksum 0xFFFF d).toNat →
    exec (.appCkerr (d ++ [hi, lo])) s =
      .next { s with errApp := .checksumError, result := some (.err .checksumError) }

/-- APP.OK (42 R154): without a filter, or with the source expected. -/
def Obligations.AppOk : Prop :=
  ∀ (s : State) (d : List Byte) (hi lo src : Byte) (bcast : Bool) (filter : Option Byte),
    hi.toNat * 256 + lo.toNat = (Config.prims.checksum 0xFFFF d).toNat → filter = none ∨ filter = some src →
    exec (.appOk src bcast (d ++ [hi, lo]) filter) s =
      .next { s with errApp := .noError, result := some (.packet src bcast d) }

/-- APP.SRC_DROP (42 R155). -/
def Obligations.AppSrcDrop : Prop :=
  ∀ (s : State) (d : List Byte) (hi lo src e : Byte),
    hi.toNat * 256 + lo.toNat = (Config.prims.checksum 0xFFFF d).toNat → src ≠ e →
    exec (.appSrcDrop src (d ++ [hi, lo]) e) s = .next { s with errApp := .noError, result := some .dropped }

/-! ### Receive operations -/

/-- RX_PHY, non-blocking: one PHY step by the transition table of 40 R108 (40 R113). -/
def Obligations.RxPhyNonblocking : Prop :=
  ∀ (s : State), s.acc ≤ s.cfg.rxCap →
    exec (.rxPhy .nonblock) s = .next { phyAfter Config.prims s with pending := none }

/-- RX_MAC, non-blocking: the PHY step, then the MAC stage on its result (41 R139, R130, R135, R136). -/
def Obligations.RxMacNonblocking : Prop :=
  ∀ (s : State), s.acc ≤ s.cfg.rxCap →
    exec (.rxMac .nonblock) s = .next (macAfter { phyAfter Config.prims s with pending := none })

/-- PKT_RX and PKT_RX_FROM, non-blocking: PHY, MAC, APP, without and with the source filter (42 R156, R159, R157, R158). -/
def Obligations.PacketReceiveNonblocking : Prop :=
  ∀ (s : State) (e : Byte), s.acc ≤ s.cfg.rxCap →
    exec (.pktRx .nonblock) s =
      .next (appAfter Config.prims none (macAfter { phyAfter Config.prims s with pending := none })) ∧
    exec (.pktRxFrom .nonblock e) s =
      .next (appAfter Config.prims (some e) (macAfter { phyAfter Config.prims s with pending := none }))

/-- One turn of a blocking operation: on a PHY result `NONE` it stays under way, the upper slots unwritten; otherwise it
ends as the non-blocking one does (40 R115, 41 R137). -/
def Obligations.BlockingTurn : Prop :=
  ∀ (op : RxOp) (s : State), s.acc ≤ s.cfg.rxCap →
    ((phyAfter Config.prims s).result = some .none →
      exec (op.instr .block) s = .next { phyAfter Config.prims s with pending := some op, result := none }) ∧
    ((phyAfter Config.prims s).result ≠ some .none → exec (op.instr .block) s = exec (op.instr .nonblock) s)

/-- `DEFAULT` blocks exactly when `BLOCKING_DEFAULT` is true (40 R116). -/
def Obligations.DefaultBlocking : Prop :=
  ∀ (op : RxOp) (s : State),
    (s.cfg.blockingDefault = true → exec (op.instr .default) s = exec (op.instr .block) s) ∧
    (s.cfg.blockingDefault = false → exec (op.instr .default) s = exec (op.instr .nonblock) s)

/-! ### Transmit operations -/

/-- A size above the layer's maximum: `Oversize` in the operation's own slot, nothing else (43 R170, R174, R175). -/
def Obligations.TransmitOversize : Prop :=
  ∀ (s : State) (dst : Byte) (bytes : List Byte) (size : Nat),
    (s.cfg.rxCap < size →
      exec (.txPhy bytes size) s = .next { s with errPhy := .oversize, result := some (.err .oversize) }) ∧
    (s.cfg.payloadMax < size →
      exec (.txMac dst bytes size) s = .next { s with errMac := .oversize, result := some (.err .oversize) }) ∧
    (s.cfg.payloadMax < size + 2 →
      exec (.pktTx dst bytes size) s = .next { s with errApp := .oversize, result := some (.err .oversize) })

/-- TX_PHY on a transport that takes each of its three writes whole, of each reply no more asked than the length of its
own piece: the bytes on the line, their order, the result (43 R171). Every size the check admits has an encoding, with no
delimiter in it (44 R195). -/
def Obligations.TxPhySends : Prop :=
  (∀ (s : State) (payload : List Byte) (size : Nat), size ≤ s.cfg.rxCap → size ≤ payload.length →
    ∃ raw, Config.prims.encode s.cfg.mode (payload.take size) = some raw ∧ s.cfg.delim ∉ raw) ∧
  ∀ (s : State) (payload raw : List Byte) (size : Nat), size ≤ s.cfg.rxCap → size ≤ payload.length →
    Config.prims.encode s.cfg.mode (payload.take size) = some raw →
    TakesWhole [[s.cfg.delim], raw, [s.cfg.delim]] s.writeReplies →
    exec (.txPhy payload size) s = .next { s with
      dir := .rx
      lineLog := s.lineLog ++
        [.setTransmit, .write [s.cfg.delim] [s.cfg.delim], .write raw raw, .write [s.cfg.delim] [s.cfg.delim], .flush,
          .setReceive]
      writeReplies := s.writeReplies.drop 3
      errPhy := .noError
      result := some (.sent raw.length) }

/-- TX_MAC on such a transport: the frame `[dst, LOCAL_ADDR] ++ payload[0..size)`, which has an encoding, is sent, the
result is `size` (43 R174). -/
def Obligations.TxMacSends : Prop :=
  (∀ (s : State) (dst : Byte) (payload : List Byte) (size : Nat), size ≤ s.cfg.payloadMax → size ≤ payload.length →
    ∃ raw, Config.prims.encode s.cfg.mode (dst :: s.cfg.localAddr :: payload.take size) = some raw) ∧
  ∀ (s : State) (dst : Byte) (payload raw : List Byte) (size : Nat), size ≤ s.cfg.payloadMax → size ≤ payload.length →
    Config.prims.encode s.cfg.mode (dst :: s.cfg.localAddr :: payload.take size) = some raw →
    TakesWhole [[s.cfg.delim], raw, [s.cfg.delim]] s.writeReplies →
    exec (.txMac dst payload size) s = .next { s with
      dir := .rx
      lineLog := s.lineLog ++
        [.setTransmit, .write [s.cfg.delim] [s.cfg.delim], .write raw raw, .write [s.cfg.delim] [s.cfg.delim], .flush,
          .setReceive]
      writeReplies := s.writeReplies.drop 3
      errPhy := .noError
      errMac := .noError
      result := some (.sent size) }

/-- PKT_TX on such a transport: the data with its checksum, high byte first, which has an encoding as a frame, is sent,
the result is `size + 2` (43 R175). -/
def Obligations.PktTxSends : Prop :=
  (∀ (s : State) (dst : Byte) (data : List Byte) (size : Nat), size + 2 ≤ s.cfg.payloadMax → size ≤ data.length →
    ∃ (raw : List Byte) (hi lo : Byte),
      hi.toNat * 256 + lo.toNat = (Config.prims.checksum 0xFFFF (data.take size)).toNat ∧
      Config.prims.encode s.cfg.mode (dst :: s.cfg.localAddr :: (data.take size ++ [hi, lo])) = some raw) ∧
  ∀ (s : State) (dst hi lo : Byte) (data raw : List Byte) (size : Nat),
    size + 2 ≤ s.cfg.payloadMax → size ≤ data.length →
    hi.toNat * 256 + lo.toNat = (Config.prims.checksum 0xFFFF (data.take size)).toNat →
    Config.prims.encode s.cfg.mode (dst :: s.cfg.localAddr :: (data.take size ++ [hi, lo])) = some raw →
    TakesWhole [[s.cfg.delim], raw, [s.cfg.delim]] s.writeReplies →
    exec (.pktTx dst data size) s = .next { s with
      dir := .rx
      lineLog := s.lineLog ++
        [.setTransmit, .write [s.cfg.delim] [s.cfg.delim], .write raw raw, .write [s.cfg.delim] [s.cfg.delim], .flush,
          .setReceive]
      writeReplies := s.writeReplies.drop 3
      errPhy := .noError
      errMac := .noError
      errApp := .noError
      result := some (.sent (size + 2)) }

/-- A failing encode raises EncodeError before any I/O, for every codec (43 R172); with the contracts it does not
happen. -/
def Obligations.TxPhyEncodeFailure : Prop :=
  (∀ (P : Primitives) (s : State) (payload : List Byte) (size : Nat), size ≤ s.cfg.rxCap → size ≤ payload.length →
    P.encode s.cfg.mode (payload.take size) = none →
    txPhy P payload size s = .next { s with errPhy := .encodeError, result := some (.err .encodeError) }) ∧
  ∀ (s : State) (payload : List Byte) (size : Nat), exec (.txPhy payload size) s = txPhy Config.prims payload size s

/-- A short write, at any of the three, the ones before it taken whole: the rest is skipped, the direction goes back to
receive, WriteError (43 R173). -/
def Obligations.TxPhyShortWrite : Prop :=
  ∀ (s : State) (payload : List Byte) (size : Nat) (raw piece : List Byte) (k : Nat) (pre post : List WriteReply)
    (r : WriteReply),
    size ≤ s.cfg.rxCap → size ≤ payload.length → Config.prims.encode s.cfg.mode (payload.take size) = some raw →
    [[s.cfg.delim], raw, [s.cfg.delim]][k]? = some piece → s.writeReplies = pre ++ r :: post → pre.length = k →
    TakesWhole ([[s.cfg.delim], raw, [s.cfg.delim]].take k) pre → r.count < piece.length →
    exec (.txPhy payload size) s = .next { s with
      dir := .rx
      lineLog := s.lineLog ++ shortLog s.cfg.delim raw piece k r.reached
      writeReplies := post
      errPhy := .writeError
      result := some (.err .writeError) }

/-- A short write, at any of the three, is WriteError at every layer that wraps the write, and the state is otherwise
that of TX_PHY's own failure (60 R231, 43 R173 to R175). -/
def Obligations.WriteErrorPropagates : Prop :=
  ∀ (s : State) (dst : Byte) (bytes : List Byte) (size : Nat) (raw piece : List Byte) (k : Nat)
    (pre post : List WriteReply) (r : WriteReply),
    size ≤ bytes.length → [[s.cfg.delim], raw, [s.cfg.delim]][k]? = some piece → s.writeReplies = pre ++ r :: post →
    pre.length = k → TakesWhole ([[s.cfg.delim], raw, [s.cfg.delim]].take k) pre → r.count < piece.length →
    (size ≤ s.cfg.payloadMax →
      Config.prims.encode s.cfg.mode (dst :: s.cfg.localAddr :: bytes.take size) = some raw →
      exec (.txMac dst bytes size) s = .next { s with
        dir := .rx
        lineLog := s.lineLog ++ shortLog s.cfg.delim raw piece k r.reached
        writeReplies := post
        errPhy := .writeError
        errMac := .writeError
        result := some (.err .writeError) }) ∧
    ∀ hi lo : Byte, size + 2 ≤ s.cfg.payloadMax →
      hi.toNat * 256 + lo.toNat = (Config.prims.checksum 0xFFFF (bytes.take size)).toNat →
      Config.prims.encode s.cfg.mode (dst :: s.cfg.localAddr :: (bytes.take size ++ [hi, lo])) = some raw →
      exec (.pktTx dst bytes size) s = .next { s with
        dir := .rx
        lineLog := s.lineLog ++ shortLog s.cfg.delim raw piece k r.reached
        writeReplies := post
        errPhy := .writeError
        errMac := .writeError
        errApp := .writeError
        result := some (.err .writeError) }

/-! ### The whole machine -/

/-- Every step from a good state ends in a good state (10 R31; the clauses of `State.Inv`). -/
def Obligations.StepKeepsInv : Prop :=
  ∀ (s t : State), s.Inv → step s = .next t → t.Inv

/-- From a good state whose commands are commands with their operands there, a step does not stop. -/
def Obligations.StepCompletes : Prop :=
  ∀ (s : State), s.Inv → s.CommandsGood → ∃ t, step s = .next t

/-- Where the model stops by name, all its own choices: the class a step performs is always the one that applies, so no
step, from any state, is refused as a class that does not apply; an event or an outcome executed where its class does not
apply is refused so (log 12); a size beyond the bytes given is refused (log 13); an access to RXBUF past its cells, in
states that break `ACC <= RX_CAP`, is a fault. -/
def Obligations.StopsByName : Prop :=
  (∀ (s : State) (m : String), step s ≠ .refused (.classDoesNotApply m)) ∧
  (∀ (s : State) (e : PhyEvent), phyClass s ≠ e → ∃ m, exec e.toInstr s = .refused (.classDoesNotApply m)) ∧
  (∀ (s : State) (o : Operands) (e : EndOutcome), endClass Config.prims s.cfg o.payload ≠ e →
    ∃ m, exec (e.toInstr o) s = .refused (.classDoesNotApply m)) ∧
  (∀ (s : State) (o : Operands) (e : MacOutcome), macClass s.cfg o.payload ≠ e →
    ∃ m, exec (e.toInstr o) s = .refused (.classDoesNotApply m)) ∧
  (∀ (s : State) (o : Operands) (e : AppOutcome), (e = .srcDrop → o.filtered = true) →
    appClass Config.prims o.src o.filter o.payload ≠ e →
    ∃ m, exec (e.toInstr o) s = .refused (.classDoesNotApply m)) ∧
  (∀ (s : State) (dst : Byte) (bytes : List Byte) (size : Nat), bytes.length < size →
    (size ≤ s.cfg.rxCap → exec (.txPhy bytes size) s = .refused .sizeBeyondPayload) ∧
    (size ≤ s.cfg.payloadMax → exec (.txMac dst bytes size) s = .refused .sizeBeyondPayload) ∧
    (size + 2 ≤ s.cfg.payloadMax → exec (.pktTx dst bytes size) s = .refused .sizeBeyondPayload)) ∧
  ∀ (s : State), s.cfg.rxCap < s.acc → phyClass s = .append ∨ phyClass s = .frameEnd →
    exec (phyClass s).toInstr s = .fault .rxbufOutOfRange

/-- No instruction changes the configuration (10 R21), takes a command off the port, or uses up arrivals. -/
def Obligations.ConfigurationImmutable : Prop :=
  ∀ (i : Instr) (s t : State), exec i s = .next t →
    t.cfg = s.cfg ∧ t.commands = s.commands ∧ t.arrivals = s.arrivals

/-- The only store into RXBUF is the one PHY.APPEND performs, by itself or as the PHY step of a receive operation, where its
class applies (synchronized, a byte that is not the delimiter, `ACC < RX_CAP`): that byte at `ACC`, and `ACC` goes up by 1
with it (20 R51). -/
def Obligations.RxbufStoresOnlyAtAcc : Prop :=
  ∀ (i : Instr) (s t : State), exec i s = .next t →
    t.rxbuf = s.rxbuf ∨
    (i = .phyAppend ∨ ∃ op blk, i = RxOp.instr blk op) ∧ phyClass s = .append ∧
    ∃ b, s.rxQueue.head? = some b ∧ b ≠ s.cfg.delim ∧ s.sync = true ∧ s.acc < s.cfg.rxCap ∧ t.acc = s.acc + 1 ∧
      t.rxbuf = Memory.write s.rxbuf s.acc b

/-- An instruction takes at most one byte from the transport, the oldest (40 R100, 20 R60); the transmit operations take
none and leave SYNC and ACC (file 43). -/
def Obligations.AtMostOneByteConsumed : Prop :=
  (∀ (i : Instr) (s t : State), exec i s = .next t → t.rxQueue = s.rxQueue ∨ ∃ b, s.rxQueue = b :: t.rxQueue) ∧
  ∀ (dst : Byte) (bytes : List Byte) (size : Nat) (i : Instr) (s t : State),
    i = .txPhy bytes size ∨ i = .txMac dst bytes size ∨ i = .pktTx dst bytes size → exec i s = .next t →
    t.rxQueue = s.rxQueue ∧ t.sync = s.sync ∧ t.acc = s.acc ∧ t.rxbuf = s.rxbuf ∧ (s.dir = .rx → t.dir = .rx)

/-- Which operation leaves which slots alone: the layers above it (60 R222). -/
def Obligations.UpperSlotsUntouched : Prop :=
  ∀ (s t : State) (blk : Blk) (dst : Byte) (bytes : List Byte) (size : Nat),
    (exec (.rxPhy blk) s = .next t → t.errMac = s.errMac ∧ t.errApp = s.errApp) ∧
    (exec (.rxMac blk) s = .next t → t.errApp = s.errApp) ∧
    (exec (.txPhy bytes size) s = .next t → t.errMac = s.errMac ∧ t.errApp = s.errApp) ∧
    (exec (.txMac dst bytes size) s = .next t → t.errApp = s.errApp)

/-- After every hard error on the receive path the block is in NO_SYNC, and the byte is consumed (60 R224). -/
def Obligations.HardErrorLeavesNoSync : Prop :=
  ∀ (op : RxOp) (blk : Blk) (s t : State) (e : ErrorKind), exec (op.instr blk) s = .next t → t.result = some (.err e) →
    t.NoSync ∧ ∃ b, s.rxQueue = b :: t.rxQueue

/-- Timeout, ReadError, NoData and Unknown are never raised (60 R221). -/
def Obligations.NeverRaisedKinds : Prop :=
  ∀ (s t : State), s.SlotsRaisable → step s = .next t → t.SlotsRaisable

/-- RXBUF cells at and above ACC are unobservable: two states that differ only there step alike (20 R53). -/
def Obligations.StaleCellsUnobservable : Prop :=
  ∀ (s t : State), Memory.wf s.rxbuf → Memory.wf t.rxbuf → AgreeBelowAcc s t → SameBelowAcc (step s) (step t)

/-- A whole stream from NO_SYNC: noise, a delimiter, a raw frame, a delimiter, byte by byte (40 R117 without the empty
polls, which PHY.EMPTY covers). -/
def Obligations.WholeStream : Prop :=
  ∀ (s : State) (noise raw : List Byte), Memory.wf s.rxbuf → s.NoSync →
    s.rxQueue = noise ++ [s.cfg.delim] ++ raw ++ [s.cfg.delim] → s.cfg.delim ∉ noise → s.cfg.delim ∉ raw →
    1 ≤ raw.length → raw.length ≤ s.cfg.rxCap →
    ∃ t, receiveRun (noise.length + raw.length + 2) s =
      some (List.replicate noise.length (some .none, .noiseData, false, 0) ++ [(some .none, .noError, true, 0)] ++
        (List.range raw.length).map (fun i => (some .none, .noError, true, i + 1)) ++
        [(some (endResult s.cfg (Config.prims.decode s.cfg.mode raw)).2,
          (endResult s.cfg (Config.prims.decode s.cfg.mode raw)).1, false, 0)], t) ∧
      t.NoSync ∧ t.rxQueue = []

/-- What TX_PHY puts on the wire, a receiver in NO_SYNC with the same configuration constants gives back as the frame
(44 R202, 95 E1), for payloads of 1 to PAYLOAD_MAX bytes. -/
def Obligations.TransmitReceiveRoundTrip : Prop :=
  ∀ (a a' b : State) (p wire : List Byte), Memory.wf b.rxbuf → b.NoSync → b.cfg.mode = a.cfg.mode →
    b.cfg.payloadMax = a.cfg.payloadMax → b.cfg.phyDecMax = b.cfg.payloadMax → 1 ≤ p.length →
    p.length ≤ b.cfg.payloadMax → a.writeReplies = [] → exec (.txPhy p p.length) a = .next a' →
    wireOf a'.lineLog = wireOf a.lineLog ++ wire → b.rxQueue = wire →
    ∃ seen t, receiveRun wire.length b = some (seen, t) ∧ t.result = some (.frame p) ∧ t.errPhy = .noError ∧ t.NoSync

/-- Out of phase, a cleanly bracketed frame is lost: from `S0` its opening delimiter is a resynchronization, its bytes are
noise, its closing delimiter starts a frame again (70 R273, 90 C5). -/
def Obligations.PhaseSlipLosesFrame : Prop :=
  ∀ (s : State) (raw rest : List Byte), s.sync = true → s.acc = 0 →
    s.rxQueue = [s.cfg.delim] ++ raw ++ [s.cfg.delim] ++ rest → s.cfg.delim ∉ raw →
    ∃ t, receiveRun (raw.length + 2) s =
      some ([(some .none, .noError, false, 0)] ++ List.replicate raw.length (some .none, .noiseData, false, 0) ++
        [(some .none, .noError, true, 0)], t) ∧
      t.sync = true ∧ t.acc = 0 ∧ t.rxQueue = rest

/-- With a checksum that meets the detection requirement, a packet that verifies and is changed in exactly one bit of its
data or trailer is a checksum error, whatever its source and the filter (42 R160, 44 R204, 60 R226). -/
def Obligations.SingleBitFlipDetected : Prop :=
  ∀ (P : Primitives), P.Detects →
    ∀ (s : State) (src : Byte) (bcast : Bool) (filter : Option Byte) (p p' : List Byte), 2 ≤ p.length →
      rxChecksum p = calcChecksum P p → OneBitApart p p' →
      performApp P src bcast p' filter s =
        .next { s with errApp := .checksumError, result := some (.err .checksumError) }
end

