-- ==== Sys2Proof/Laws/Memory.lean ====
section
/-! SUPPORT. RXBUF as data: a store keeps the canonical form, a read after a store, and memories that read alike are
equal (spec 20 R51, R52). -/
namespace Sys2Proof.Machine

theorem Memory.read_absent {m : Memory} {a : Nat} (h : ∀ c ∈ m, c.1 ≠ a) : Memory.read m a = Memory.unlisted := by
  induction m with
  | nil => rfl
  | cons c m ih =>
    rw [Memory.read, if_neg (h c (by simp))]
    exact ih fun d hd => h d (by simp [hd])

theorem Memory.wf_tail {c : Host.Cell} {m : Memory} (h : Memory.wf (c :: m)) : Memory.wf m :=
  ⟨(List.pairwise_cons.mp h.1).2, fun d hd => h.2 d (by simp [hd])⟩

theorem Memory.head_lt {c : Host.Cell} {m : Memory} (h : Memory.wf (c :: m)) : ∀ d ∈ m, c.1 < d.1 :=
  (List.pairwise_cons.mp h.1).1

theorem Memory.put_wf {m : Memory} {a : Nat} (b : Byte) (h : Memory.wf m) (ha : ∀ c ∈ m, a < c.1) :
    Memory.wf (Memory.put a b m) := by
  unfold Memory.put
  split
  · exact h
  · refine ⟨List.pairwise_cons.mpr ⟨ha, h.1⟩, fun c hc => ?_⟩
    rcases List.mem_cons.mp hc with rfl | hc
    · assumption
    · exact h.2 c hc

theorem Memory.mem_put {m : Memory} {a : Nat} {b : Byte} {c : Host.Cell} (h : c ∈ Memory.put a b m) :
    c = (a, b) ∨ c ∈ m := by
  unfold Memory.put at h
  split at h
  · exact .inr h
  · simpa using h

/-- What a store can leave in the list. -/
theorem Memory.mem_write {m : Memory} {a : Nat} {b : Byte} {c : Host.Cell} (h : c ∈ Memory.write m a b) :
    c = (a, b) ∨ c ∈ m := by
  induction m with
  | nil => simpa using Memory.mem_put h
  | cons d m ih =>
    rw [Memory.write] at h
    split at h
    · exact Memory.mem_put h
    split at h
    · exact (Memory.mem_put h).imp_right fun h => by simp [h]
    · rcases List.mem_cons.mp h with rfl | h
      · simp
      · exact (ih h).imp_right fun h => by simp [h]

/-- A store keeps the canonical form. -/
theorem Memory.write_wf {m : Memory} (a : Nat) (b : Byte) (h : Memory.wf m) : Memory.wf (Memory.write m a b) := by
  induction m with
  | nil => exact Memory.put_wf b h (by simp)
  | cons d m ih =>
    have hd := Memory.head_lt h
    rw [Memory.write]
    split
    · refine Memory.put_wf b h fun c hc => ?_
      rcases List.mem_cons.mp hc with rfl | hc
      · assumption
      · exact lt_trans ‹_› (hd c hc)
    split
    · exact Memory.put_wf b (Memory.wf_tail h) fun c hc => by have := hd c hc; omega
    · refine ⟨List.pairwise_cons.mpr ⟨fun c hc => ?_, (ih (Memory.wf_tail h)).1⟩, fun c hc => ?_⟩
      · rcases Memory.mem_write hc with rfl | hc
        · show d.1 < a
          omega
        · exact hd c hc
      · rcases List.mem_cons.mp hc with rfl | hc
        · exact h.2 _ (by simp)
        · exact (ih (Memory.wf_tail h)).2 c hc

theorem Memory.read_put_same {m : Memory} {a : Nat} (b : Byte) (ha : ∀ c ∈ m, a < c.1) :
    Memory.read (Memory.put a b m) a = b := by
  unfold Memory.put
  split
  · next h => rw [h]; exact Memory.read_absent fun c hc => by have := ha c hc; omega
  · simp [Memory.read]

theorem Memory.read_put_other {m : Memory} {a a' : Nat} (b : Byte) (h : a' ≠ a) :
    Memory.read (Memory.put a b m) a' = Memory.read m a' := by
  unfold Memory.put
  split
  · rfl
  · simp [Memory.read, Ne.symm h]

/-- A read after a store to the same cell. -/
theorem Memory.read_write_same {m : Memory} (a : Nat) (b : Byte) (h : Memory.wf m) :
    Memory.read (Memory.write m a b) a = b := by
  induction m with
  | nil => exact Memory.read_put_same b (by simp)
  | cons d m ih =>
    have hd := Memory.head_lt h
    rw [Memory.write]
    split
    · refine Memory.read_put_same b fun c hc => ?_
      rcases List.mem_cons.mp hc with rfl | hc
      · assumption
      · exact lt_trans ‹_› (hd c hc)
    split
    · exact Memory.read_put_same b fun c hc => by have := hd c hc; omega
    · rw [Memory.read, if_neg (by assumption)]
      exact ih (Memory.wf_tail h)

/-- A store leaves every other cell. -/
theorem Memory.read_write_other (m : Memory) {a a' : Nat} (b : Byte) (h : a' ≠ a) :
    Memory.read (Memory.write m a b) a' = Memory.read m a' := by
  induction m with
  | nil => exact Memory.read_put_other b h
  | cons d m ih =>
    rw [Memory.write]
    split
    · exact Memory.read_put_other b h
    split
    · next hda =>
      rw [Memory.read_put_other b h, Memory.read, if_neg fun e => h (e.symm.trans hda)]
    · simp only [Memory.read, ih]

/-- Canonical memories that read alike are the same list. -/
theorem Memory.ext {m n : Memory} (hm : Memory.wf m) (hn : Memory.wf n)
    (h : ∀ a, Memory.read m a = Memory.read n a) : m = n := by
  induction m generalizing n with
  | nil =>
    cases n with
    | nil => rfl
    | cons d n =>
      have := h d.1
      simp only [Memory.read, if_true] at this
      exact absurd this.symm (hn.2 d (by simp))
  | cons c m ih =>
    cases n with
    | nil =>
      have := h c.1
      simp only [Memory.read, if_true] at this
      exact absurd this (hm.2 c (by simp))
    | cons d n =>
      have hc := Memory.head_lt hm
      have hd := Memory.head_lt hn
      have hcd : c.1 = d.1 := by
        rcases lt_trichotomy c.1 d.1 with hlt | he | hlt
        · have h1 := h c.1
          rw [Memory.read, if_pos rfl, Memory.read_absent (m := d :: n)] at h1
          · exact absurd h1 (hm.2 c (by simp))
          · intro e he
            rcases List.mem_cons.mp he with rfl | he
            · omega
            · have := hd e he; omega
        · exact he
        · have h1 := h d.1
          rw [Memory.read_absent (m := c :: m), Memory.read, if_pos rfl] at h1
          · exact absurd h1.symm (hn.2 d (by simp))
          · intro e he
            rcases List.mem_cons.mp he with rfl | he
            · omega
            · have := hc e he; omega
      have hv : c.2 = d.2 := by
        have h1 := h c.1
        rwa [Memory.read, if_pos rfl, Memory.read, if_pos hcd.symm] at h1
      have ht : m = n := by
        refine ih (Memory.wf_tail hm) (Memory.wf_tail hn) fun a => ?_
        by_cases ha : c.1 = a
        · rw [Memory.read_absent fun e he => by have := hc e he; omega,
            Memory.read_absent fun e he => by have := hd e he; omega]
        · have h1 := h a
          rwa [Memory.read, if_neg ha, Memory.read, if_neg (hcd ▸ ha)] at h1
      rw [ht, Prod.ext hcd hv]

theorem State.memWrite_some {s t : State} {a : Nat} {v : Byte} (h : s.memWrite a v = some t) :
    a < s.cfg.rxCap ∧ t = { s with rxbuf := Memory.write s.rxbuf a v } := by
  unfold State.memWrite at h
  split at h
  · exact ⟨‹_›, (Option.some.inj h).symm⟩
  · cases h

/-- The one store of the machine keeps the canonical form (20 R51). -/
theorem State.memWrite_wf {s t : State} {a : Nat} {v : Byte} (h : s.memWrite a v = some t) (hs : Memory.wf s.rxbuf) :
    Memory.wf t.rxbuf := by
  rw [(State.memWrite_some h).2]
  exact Memory.write_wf a v hs

theorem State.reset_memory_wf : Memory.wf State.reset.rxbuf := by decide

theorem State.memRead_some {s : State} {a n : Nat} {bytes : List Byte} (h : s.memRead a n = some bytes) :
    a + n ≤ s.cfg.rxCap ∧ bytes = Memory.prefixFrom s.rxbuf a n := by
  unfold State.memRead at h
  split at h
  · exact ⟨‹_›, (Option.some.inj h).symm⟩
  · cases h

@[simp] theorem Memory.prefixFrom_length (m : Memory) (a n : Nat) : (Memory.prefixFrom m a n).length = n := by
  simp [Memory.prefixFrom]

/-- One more cell at the end of the bytes read (40 R105 then R104). -/
theorem Memory.prefixFrom_succ (m : Memory) (a n : Nat) :
    Memory.prefixFrom m a (n + 1) = Memory.prefixFrom m a n ++ [Memory.read m (a + n)] := by
  simp [Memory.prefixFrom, List.range_succ]

/-- The bytes read depend on their own cells only. -/
theorem Memory.prefixFrom_congr {m m' : Memory} {n : Nat} (h : ∀ i, i < n → Memory.read m' i = Memory.read m i) :
    Memory.prefixFrom m' 0 n = Memory.prefixFrom m 0 n := by
  simp only [Memory.prefixFrom, Nat.zero_add]
  exact List.map_congr_left fun i hi => h i (List.mem_range.mp hi)

end Sys2Proof.Machine
end

