-- ==== Sys2Proof/Laws/Classes.lean ====
section
/-! SUPPORT. The condition vectors select the classes of the spec's tables (30 R80 to R83), stated once over plain
predicates. -/
namespace Sys2Proof.Machine

theorem decodePhyEvent_bits (avail delim sync acc full : Bool) :
    decodePhyEvent (bits5 avail delim sync acc full) =
      if avail = false then .empty
      else if delim then (if sync = false then .start else if acc = false then .resync else .frameEnd)
      else if sync = false then .noise
      else if full then .overflow else .append := by
  revert avail delim sync acc full; decide

theorem decodeEndOutcome_bits (ok long empty : Bool) :
    decodeEndOutcome (bits3 ok long empty) =
      if ok = false then .decodeErr else if long then .oversize else if empty then .empty else .ok := by
  revert ok long empty; decide

theorem decodeMacOutcome_bits (two own bcast : Bool) :
    decodeMacOutcome (bits3 two own bcast) =
      if two = false then .runt else if own then .acceptUni else if bcast then .acceptBcast else .drop := by
  revert two own bcast; decide

theorem decodeAppOutcome_bits (one two equal passes : Bool) :
    decodeAppOutcome (bits4 one two equal passes) =
      if one = false then .none else if two = false then .runt else if equal = false then .ckerr
      else if passes then .ok else .srcDrop := by
  revert one two equal passes; decide

/-- 30 R80, no byte available. -/
theorem phyClass_nil {s : State} (h : s.rxQueue = []) : phyClass s = .empty := by
  simp [phyClass, eventVector, decodePhyEvent_bits, State.available, h]

/-- 30 R80, a byte available. -/
theorem phyClass_cons {s : State} {b : Byte} {q : List Byte} (h : s.rxQueue = b :: q) :
    phyClass s =
      if b = s.cfg.delim then
        (if s.sync = false then .start else if s.acc = 0 then .resync else .frameEnd)
      else if s.sync = false then .noise
      else if s.acc = s.cfg.rxCap then .overflow else .append := by
  simp [phyClass, eventVector, decodePhyEvent_bits, State.available, State.read, h]

/-- 30 R81. -/
theorem endClass_eq (P : Primitives) (c : SessionConfig) (raw : List Byte) :
    endClass P c raw =
      match P.decode c.mode raw with
      | .fail => .decodeErr
      | .tooLong => .oversize
      | .ok f => if c.phyDecMax < f.length then .oversize else if f.length = 0 then .empty else .ok := by
  unfold endClass endVector
  cases P.decode c.mode raw <;> simp [decodeEndOutcome_bits]

/-- 30 R82. -/
theorem macClass_eq (c : SessionConfig) (f : List Byte) :
    macClass c f =
      if f.length < 2 then .runt
      else if frameDst f = c.localAddr then .acceptUni
      else if frameDst f = bcastAddr then .acceptBcast else .drop := by
  simp only [macClass, macVector, decodeMacOutcome_bits, decide_eq_false_iff_not, decide_eq_true_eq, not_le]

/-- 30 R83. -/
theorem appClass_eq (P : Primitives) (src : Byte) (filter : Option Byte) (p : List Byte) :
    appClass P src filter p =
      if p.length = 0 then .none
      else if p.length = 1 then .runt
      else if rxChecksum p ≠ P.checksum seed (appData p) then .ckerr
      else if filter = none ∨ filter = some src then .ok else .srcDrop := by
  have hs : (sourcePasses src filter = true) = (filter = none ∨ filter = some src) := by
    cases filter <;> simp [sourcePasses, eq_comm]
  have h1 : (¬ 1 ≤ p.length) = (p.length = 0) := by simp only [eq_iff_iff]; omega
  simp only [appClass, appVector, decodeAppOutcome_bits, decide_eq_false_iff_not, hs, calcChecksum, h1]
  by_cases h0 : p.length = 0
  · simp [h0]
  · have h2 : (¬ 2 ≤ p.length) = (p.length = 1) := by simp only [eq_iff_iff]; omega
    by_cases h3 : rxChecksum p = P.checksum seed (appData p) <;> simp [h0, h2, h3]

end Sys2Proof.Machine
end

