-- ==== Sys2Proof/Laws/Codec.lean ====
section
/-! SUPPORT. The codec of the mode in force, from its contracts (spec 44 R195 to R199): total on what the transmit path
gives it, free of the delimiter, inverted by its decode, bounded. -/
namespace Sys2Proof.Machine

theorem escEncode_length (c0 db : Byte) (p : List Byte) :
    p.length ≤ (escEncode c0 db p).length ∧ (escEncode c0 db p).length ≤ 2 * p.length := by
  induction p with
  | nil => simp [escEncode]
  | cons b p ih =>
    rw [escEncode]
    split
    · simp; omega
    split
    · simp; omega
    · simp; omega

theorem escEncode_clean {c0 db : Byte} (h0 : c0 ≠ delimOf .esc) (h1 : db ≠ delimOf .esc) (p : List Byte) :
    delimOf .esc ∉ escEncode c0 db p := by
  have he : escByte ≠ delimOf .esc := by decide
  induction p with
  | nil => simp [escEncode]
  | cons b p ih =>
    rw [escEncode]
    split
    · simp [ih, h0.symm, he.symm]
    split
    · simp [ih, h1.symm, he.symm]
    · next h _ => simp [ih, Ne.symm h]

/-- A byte that is no escape byte decodes to itself. -/
theorem escScan_plain {c0 db b : Byte} (hb : b ≠ escByte) (r : List Byte) :
    escScan c0 db (b :: r) = (escScan c0 db r).map (b :: ·) := by
  cases r <;> simp [escScan, hb]

/-- `Decode_ESC` inverts `Encode_ESC`. -/
theorem escScan_escEncode {c0 db : Byte} (h : c0 ≠ db) (p : List Byte) : escScan c0 db (escEncode c0 db p) = some p := by
  induction p with
  | nil => rfl
  | cons b p ih =>
    rw [escEncode]
    split
    · next hb => simp [escScan, ih, hb]
    split
    · next hb => simp [escScan, ih, hb, h.symm]
    · next hb => simp [escScan_plain hb, ih]

/-- A raw frame free of the escape byte decodes to itself (44 R199). -/
theorem escScan_free {c0 db : Byte} {r : List Byte} (h : escByte ∉ r) : escScan c0 db r = some r := by
  induction r with
  | nil => rfl
  | cons b r ih =>
    simp only [List.mem_cons, not_or] at h
    simp [escScan_plain (Ne.symm h.1), ih h.2]

theorem decode_esc_free (P : Primitives) {r : List Byte} (h : escByte ∉ r) : P.decode .esc r = .ok r := by
  simp [Primitives.decode, escScan_free h]

theorem stuff_payloadMax {c : SessionConfig} (h : c.mode = .stuff) : c.payloadMax + 5 ≤ 250 := by
  unfold SessionConfig.mode SessionConfig.stuffSize at h
  split at h
  · cases h
  · split at h
    · cases h
    · omega

variable {P : Primitives}

/-- Encode is total on the sizes TX_PHY admits (43 R172). -/
theorem encode_total (hP : P.Lawful) {c : SessionConfig} {p : List Byte} (h : p.length ≤ c.rxCap) :
    ∃ raw, P.encode c.mode p = some raw := by
  cases hm : c.mode with
  | stuff =>
    have := stuff_payloadMax hm
    simp only [SessionConfig.rxCap, hm] at h
    exact hP.stuff_total p (by omega)
  | esc => exact ⟨_, rfl⟩

/-- No delimiter in an encoding (44 R195 i). -/
theorem encode_clean (hP : P.Lawful) {m : Mode} {p raw : List Byte} (h : P.encode m p = some raw) : delimOf m ∉ raw := by
  cases m with
  | stuff => exact hP.stuff_clean p raw h
  | esc =>
    simp only [Primitives.encode, Option.some.injEq] at h
    subst h
    exact escEncode_clean hP.escC0_clean hP.escDB_clean p

/-- Decode inverts encode (44 R195 ii). -/
theorem decode_encode (hP : P.Lawful) {m : Mode} {p raw : List Byte} (h : P.encode m p = some raw) :
    P.decode m raw = .ok p := by
  cases m with
  | stuff => exact hP.stuff_inverse p raw h
  | esc =>
    simp only [Primitives.encode, Option.some.injEq] at h
    subst h
    simp [Primitives.decode, escScan_escEncode hP.esc_distinct]

/-- The size of an encoding, both codecs (44 R196, R198). -/
theorem encode_length (hP : P.Lawful) {c : SessionConfig} {p raw : List Byte} (hc : p.length ≤ c.rxCap)
    (h : P.encode c.mode p = some raw) :
    raw.length ≤ 2 * p.length + 1 ∧ p.length ≤ 2 * raw.length ∧ (0 < p.length → 0 < raw.length) := by
  cases hm : c.mode with
  | stuff =>
    rw [hm] at h
    have := stuff_payloadMax hm
    simp only [SessionConfig.rxCap, hm] at hc
    have h1 := hP.stuff_bound p raw h (by omega)
    have h2 := hP.stuff_nonempty p raw h
    have h3 := hP.stuff_shrinks raw p (hP.stuff_inverse p raw h)
    omega
  | esc =>
    rw [hm] at h
    simp only [Primitives.encode, Option.some.injEq] at h
    have := escEncode_length P.escC0 P.escDB p
    rw [h] at this
    omega

/-- A frame of up to `PAYLOAD_MAX` bytes fits the receiver's buffer once encoded (20 R58). -/
theorem encode_fits (hP : P.Lawful) {c : SessionConfig} {p raw : List Byte} (hc : p.length ≤ c.payloadMax)
    (h : P.encode c.mode p = some raw) : raw.length ≤ c.rxCap := by
  cases hm : c.mode with
  | stuff =>
    rw [hm] at h
    have := stuff_payloadMax hm
    have h1 := hP.stuff_bound p raw h (by omega)
    simp only [SessionConfig.rxCap, hm]
    omega
  | esc =>
    rw [hm] at h
    simp only [Primitives.encode, Option.some.injEq] at h
    have := escEncode_length P.escC0 P.escDB p
    rw [h] at this
    simp only [SessionConfig.rxCap, hm]
    omega

end Sys2Proof.Machine
end

