-- ==== Sys2Proof/Laws/State.lean ====
section
/-! SUPPORT. One lemma per field per update, true by `rfl`, for the simp set: later proofs need not unfold an update. -/
namespace Sys2Proof.Machine

/-! ### respond -/

@[simp] theorem State.respond_cfg (s : State) (r : Result) : (s.respond r).cfg = s.cfg := rfl
@[simp] theorem State.respond_sync (s : State) (r : Result) : (s.respond r).sync = s.sync := rfl
@[simp] theorem State.respond_acc (s : State) (r : Result) : (s.respond r).acc = s.acc := rfl
@[simp] theorem State.respond_rxbuf (s : State) (r : Result) : (s.respond r).rxbuf = s.rxbuf := rfl
@[simp] theorem State.respond_errPhy (s : State) (r : Result) : (s.respond r).errPhy = s.errPhy := rfl
@[simp] theorem State.respond_errMac (s : State) (r : Result) : (s.respond r).errMac = s.errMac := rfl
@[simp] theorem State.respond_errApp (s : State) (r : Result) : (s.respond r).errApp = s.errApp := rfl
@[simp] theorem State.respond_dir (s : State) (r : Result) : (s.respond r).dir = s.dir := rfl
@[simp] theorem State.respond_rxQueue (s : State) (r : Result) : (s.respond r).rxQueue = s.rxQueue := rfl
@[simp] theorem State.respond_arrivals (s : State) (r : Result) : (s.respond r).arrivals = s.arrivals := rfl
@[simp] theorem State.respond_commands (s : State) (r : Result) : (s.respond r).commands = s.commands := rfl
@[simp] theorem State.respond_pending (s : State) (r : Result) : (s.respond r).pending = s.pending := rfl
@[simp] theorem State.respond_result (s : State) (r : Result) : (s.respond r).result = some r := rfl
@[simp] theorem State.respond_lineLog (s : State) (r : Result) : (s.respond r).lineLog = s.lineLog := rfl
@[simp] theorem State.respond_writeReplies (s : State) (r : Result) : (s.respond r).writeReplies = s.writeReplies := rfl

/-! ### open -/

@[simp] theorem State.open_cfg (s : State) : (s.open).cfg = s.cfg := rfl
@[simp] theorem State.open_sync (s : State) : (s.open).sync = true := rfl
@[simp] theorem State.open_acc (s : State) : (s.open).acc = 0 := rfl
@[simp] theorem State.open_rxbuf (s : State) : (s.open).rxbuf = s.rxbuf := rfl
@[simp] theorem State.open_errPhy (s : State) : (s.open).errPhy = s.errPhy := rfl
@[simp] theorem State.open_errMac (s : State) : (s.open).errMac = s.errMac := rfl
@[simp] theorem State.open_errApp (s : State) : (s.open).errApp = s.errApp := rfl
@[simp] theorem State.open_dir (s : State) : (s.open).dir = s.dir := rfl
@[simp] theorem State.open_rxQueue (s : State) : (s.open).rxQueue = s.rxQueue := rfl
@[simp] theorem State.open_arrivals (s : State) : (s.open).arrivals = s.arrivals := rfl
@[simp] theorem State.open_commands (s : State) : (s.open).commands = s.commands := rfl
@[simp] theorem State.open_pending (s : State) : (s.open).pending = s.pending := rfl
@[simp] theorem State.open_result (s : State) : (s.open).result = s.result := rfl
@[simp] theorem State.open_lineLog (s : State) : (s.open).lineLog = s.lineLog := rfl
@[simp] theorem State.open_writeReplies (s : State) : (s.open).writeReplies = s.writeReplies := rfl

/-! ### unsync -/

@[simp] theorem State.unsync_cfg (s : State) : (s.unsync).cfg = s.cfg := rfl
@[simp] theorem State.unsync_sync (s : State) : (s.unsync).sync = false := rfl
@[simp] theorem State.unsync_acc (s : State) : (s.unsync).acc = 0 := rfl
@[simp] theorem State.unsync_rxbuf (s : State) : (s.unsync).rxbuf = s.rxbuf := rfl
@[simp] theorem State.unsync_errPhy (s : State) : (s.unsync).errPhy = s.errPhy := rfl
@[simp] theorem State.unsync_errMac (s : State) : (s.unsync).errMac = s.errMac := rfl
@[simp] theorem State.unsync_errApp (s : State) : (s.unsync).errApp = s.errApp := rfl
@[simp] theorem State.unsync_dir (s : State) : (s.unsync).dir = s.dir := rfl
@[simp] theorem State.unsync_rxQueue (s : State) : (s.unsync).rxQueue = s.rxQueue := rfl
@[simp] theorem State.unsync_arrivals (s : State) : (s.unsync).arrivals = s.arrivals := rfl
@[simp] theorem State.unsync_commands (s : State) : (s.unsync).commands = s.commands := rfl
@[simp] theorem State.unsync_pending (s : State) : (s.unsync).pending = s.pending := rfl
@[simp] theorem State.unsync_result (s : State) : (s.unsync).result = s.result := rfl
@[simp] theorem State.unsync_lineLog (s : State) : (s.unsync).lineLog = s.lineLog := rfl
@[simp] theorem State.unsync_writeReplies (s : State) : (s.unsync).writeReplies = s.writeReplies := rfl

/-! ### advance -/

@[simp] theorem State.advance_cfg (s : State) : (s.advance).cfg = s.cfg := rfl
@[simp] theorem State.advance_sync (s : State) : (s.advance).sync = s.sync := rfl
@[simp] theorem State.advance_acc (s : State) : (s.advance).acc = s.acc + 1 := rfl
@[simp] theorem State.advance_rxbuf (s : State) : (s.advance).rxbuf = s.rxbuf := rfl
@[simp] theorem State.advance_errPhy (s : State) : (s.advance).errPhy = s.errPhy := rfl
@[simp] theorem State.advance_errMac (s : State) : (s.advance).errMac = s.errMac := rfl
@[simp] theorem State.advance_errApp (s : State) : (s.advance).errApp = s.errApp := rfl
@[simp] theorem State.advance_dir (s : State) : (s.advance).dir = s.dir := rfl
@[simp] theorem State.advance_rxQueue (s : State) : (s.advance).rxQueue = s.rxQueue := rfl
@[simp] theorem State.advance_arrivals (s : State) : (s.advance).arrivals = s.arrivals := rfl
@[simp] theorem State.advance_commands (s : State) : (s.advance).commands = s.commands := rfl
@[simp] theorem State.advance_pending (s : State) : (s.advance).pending = s.pending := rfl
@[simp] theorem State.advance_result (s : State) : (s.advance).result = s.result := rfl
@[simp] theorem State.advance_lineLog (s : State) : (s.advance).lineLog = s.lineLog := rfl
@[simp] theorem State.advance_writeReplies (s : State) : (s.advance).writeReplies = s.writeReplies := rfl

/-! ### taken -/

@[simp] theorem State.taken_cfg (s : State) : (s.taken).cfg = s.cfg := rfl
@[simp] theorem State.taken_sync (s : State) : (s.taken).sync = s.sync := rfl
@[simp] theorem State.taken_acc (s : State) : (s.taken).acc = s.acc := rfl
@[simp] theorem State.taken_rxbuf (s : State) : (s.taken).rxbuf = s.rxbuf := rfl
@[simp] theorem State.taken_errPhy (s : State) : (s.taken).errPhy = s.errPhy := rfl
@[simp] theorem State.taken_errMac (s : State) : (s.taken).errMac = s.errMac := rfl
@[simp] theorem State.taken_errApp (s : State) : (s.taken).errApp = s.errApp := rfl
@[simp] theorem State.taken_dir (s : State) : (s.taken).dir = s.dir := rfl
@[simp] theorem State.taken_rxQueue (s : State) : (s.taken).rxQueue = s.rxQueue.tail := rfl
@[simp] theorem State.taken_arrivals (s : State) : (s.taken).arrivals = s.arrivals := rfl
@[simp] theorem State.taken_commands (s : State) : (s.taken).commands = s.commands := rfl
@[simp] theorem State.taken_pending (s : State) : (s.taken).pending = s.pending := rfl
@[simp] theorem State.taken_result (s : State) : (s.taken).result = s.result := rfl
@[simp] theorem State.taken_lineLog (s : State) : (s.taken).lineLog = s.lineLog := rfl
@[simp] theorem State.taken_writeReplies (s : State) : (s.taken).writeReplies = s.writeReplies := rfl

/-! ### lineAppend -/

@[simp] theorem State.lineAppend_cfg (s : State) (bytes : List Byte) : (s.lineAppend bytes).cfg = s.cfg := rfl
@[simp] theorem State.lineAppend_sync (s : State) (bytes : List Byte) : (s.lineAppend bytes).sync = s.sync := rfl
@[simp] theorem State.lineAppend_acc (s : State) (bytes : List Byte) : (s.lineAppend bytes).acc = s.acc := rfl
@[simp] theorem State.lineAppend_rxbuf (s : State) (bytes : List Byte) : (s.lineAppend bytes).rxbuf = s.rxbuf := rfl
@[simp] theorem State.lineAppend_errPhy (s : State) (bytes : List Byte) : (s.lineAppend bytes).errPhy = s.errPhy := rfl
@[simp] theorem State.lineAppend_errMac (s : State) (bytes : List Byte) : (s.lineAppend bytes).errMac = s.errMac := rfl
@[simp] theorem State.lineAppend_errApp (s : State) (bytes : List Byte) : (s.lineAppend bytes).errApp = s.errApp := rfl
@[simp] theorem State.lineAppend_dir (s : State) (bytes : List Byte) : (s.lineAppend bytes).dir = s.dir := rfl
@[simp] theorem State.lineAppend_rxQueue (s : State) (bytes : List Byte) : (s.lineAppend bytes).rxQueue = s.rxQueue ++ bytes := rfl
@[simp] theorem State.lineAppend_arrivals (s : State) (bytes : List Byte) : (s.lineAppend bytes).arrivals = s.arrivals := rfl
@[simp] theorem State.lineAppend_commands (s : State) (bytes : List Byte) : (s.lineAppend bytes).commands = s.commands := rfl
@[simp] theorem State.lineAppend_pending (s : State) (bytes : List Byte) : (s.lineAppend bytes).pending = s.pending := rfl
@[simp] theorem State.lineAppend_result (s : State) (bytes : List Byte) : (s.lineAppend bytes).result = s.result := rfl
@[simp] theorem State.lineAppend_lineLog (s : State) (bytes : List Byte) : (s.lineAppend bytes).lineLog = s.lineLog := rfl
@[simp] theorem State.lineAppend_writeReplies (s : State) (bytes : List Byte) : (s.lineAppend bytes).writeReplies = s.writeReplies := rfl

/-! ### setTransmitMode -/

@[simp] theorem State.setTransmitMode_cfg (s : State) : (s.setTransmitMode).cfg = s.cfg := rfl
@[simp] theorem State.setTransmitMode_sync (s : State) : (s.setTransmitMode).sync = s.sync := rfl
@[simp] theorem State.setTransmitMode_acc (s : State) : (s.setTransmitMode).acc = s.acc := rfl
@[simp] theorem State.setTransmitMode_rxbuf (s : State) : (s.setTransmitMode).rxbuf = s.rxbuf := rfl
@[simp] theorem State.setTransmitMode_errPhy (s : State) : (s.setTransmitMode).errPhy = s.errPhy := rfl
@[simp] theorem State.setTransmitMode_errMac (s : State) : (s.setTransmitMode).errMac = s.errMac := rfl
@[simp] theorem State.setTransmitMode_errApp (s : State) : (s.setTransmitMode).errApp = s.errApp := rfl
@[simp] theorem State.setTransmitMode_dir (s : State) : (s.setTransmitMode).dir = .tx := rfl
@[simp] theorem State.setTransmitMode_rxQueue (s : State) : (s.setTransmitMode).rxQueue = s.rxQueue := rfl
@[simp] theorem State.setTransmitMode_arrivals (s : State) : (s.setTransmitMode).arrivals = s.arrivals := rfl
@[simp] theorem State.setTransmitMode_commands (s : State) : (s.setTransmitMode).commands = s.commands := rfl
@[simp] theorem State.setTransmitMode_pending (s : State) : (s.setTransmitMode).pending = s.pending := rfl
@[simp] theorem State.setTransmitMode_result (s : State) : (s.setTransmitMode).result = s.result := rfl
@[simp] theorem State.setTransmitMode_lineLog (s : State) : (s.setTransmitMode).lineLog = s.lineLog ++ [.setTransmit] := rfl
@[simp] theorem State.setTransmitMode_writeReplies (s : State) : (s.setTransmitMode).writeReplies = s.writeReplies := rfl

/-! ### setReceiveMode -/

@[simp] theorem State.setReceiveMode_cfg (s : State) : (s.setReceiveMode).cfg = s.cfg := rfl
@[simp] theorem State.setReceiveMode_sync (s : State) : (s.setReceiveMode).sync = s.sync := rfl
@[simp] theorem State.setReceiveMode_acc (s : State) : (s.setReceiveMode).acc = s.acc := rfl
@[simp] theorem State.setReceiveMode_rxbuf (s : State) : (s.setReceiveMode).rxbuf = s.rxbuf := rfl
@[simp] theorem State.setReceiveMode_errPhy (s : State) : (s.setReceiveMode).errPhy = s.errPhy := rfl
@[simp] theorem State.setReceiveMode_errMac (s : State) : (s.setReceiveMode).errMac = s.errMac := rfl
@[simp] theorem State.setReceiveMode_errApp (s : State) : (s.setReceiveMode).errApp = s.errApp := rfl
@[simp] theorem State.setReceiveMode_dir (s : State) : (s.setReceiveMode).dir = .rx := rfl
@[simp] theorem State.setReceiveMode_rxQueue (s : State) : (s.setReceiveMode).rxQueue = s.rxQueue := rfl
@[simp] theorem State.setReceiveMode_arrivals (s : State) : (s.setReceiveMode).arrivals = s.arrivals := rfl
@[simp] theorem State.setReceiveMode_commands (s : State) : (s.setReceiveMode).commands = s.commands := rfl
@[simp] theorem State.setReceiveMode_pending (s : State) : (s.setReceiveMode).pending = s.pending := rfl
@[simp] theorem State.setReceiveMode_result (s : State) : (s.setReceiveMode).result = s.result := rfl
@[simp] theorem State.setReceiveMode_lineLog (s : State) : (s.setReceiveMode).lineLog = s.lineLog ++ [.setReceive] := rfl
@[simp] theorem State.setReceiveMode_writeReplies (s : State) : (s.setReceiveMode).writeReplies = s.writeReplies := rfl

/-! ### flush -/

@[simp] theorem State.flush_cfg (s : State) : (s.flush).cfg = s.cfg := rfl
@[simp] theorem State.flush_sync (s : State) : (s.flush).sync = s.sync := rfl
@[simp] theorem State.flush_acc (s : State) : (s.flush).acc = s.acc := rfl
@[simp] theorem State.flush_rxbuf (s : State) : (s.flush).rxbuf = s.rxbuf := rfl
@[simp] theorem State.flush_errPhy (s : State) : (s.flush).errPhy = s.errPhy := rfl
@[simp] theorem State.flush_errMac (s : State) : (s.flush).errMac = s.errMac := rfl
@[simp] theorem State.flush_errApp (s : State) : (s.flush).errApp = s.errApp := rfl
@[simp] theorem State.flush_dir (s : State) : (s.flush).dir = s.dir := rfl
@[simp] theorem State.flush_rxQueue (s : State) : (s.flush).rxQueue = s.rxQueue := rfl
@[simp] theorem State.flush_arrivals (s : State) : (s.flush).arrivals = s.arrivals := rfl
@[simp] theorem State.flush_commands (s : State) : (s.flush).commands = s.commands := rfl
@[simp] theorem State.flush_pending (s : State) : (s.flush).pending = s.pending := rfl
@[simp] theorem State.flush_result (s : State) : (s.flush).result = s.result := rfl
@[simp] theorem State.flush_lineLog (s : State) : (s.flush).lineLog = s.lineLog ++ [.flush] := rfl
@[simp] theorem State.flush_writeReplies (s : State) : (s.flush).writeReplies = s.writeReplies := rfl

/-! ### setSlot -/

@[simp] theorem State.setSlot_cfg (s : State) (l : Layer) (e : ErrorKind) : (s.setSlot l e).cfg = s.cfg := by
  cases l <;> rfl
@[simp] theorem State.setSlot_sync (s : State) (l : Layer) (e : ErrorKind) : (s.setSlot l e).sync = s.sync := by
  cases l <;> rfl
@[simp] theorem State.setSlot_acc (s : State) (l : Layer) (e : ErrorKind) : (s.setSlot l e).acc = s.acc := by
  cases l <;> rfl
@[simp] theorem State.setSlot_rxbuf (s : State) (l : Layer) (e : ErrorKind) : (s.setSlot l e).rxbuf = s.rxbuf := by
  cases l <;> rfl
@[simp] theorem State.setSlot_phy_errPhy (s : State) (e : ErrorKind) : (s.setSlot .phy e).errPhy = e := rfl
@[simp] theorem State.setSlot_mac_errPhy (s : State) (e : ErrorKind) : (s.setSlot .mac e).errPhy = s.errPhy := rfl
@[simp] theorem State.setSlot_app_errPhy (s : State) (e : ErrorKind) : (s.setSlot .app e).errPhy = s.errPhy := rfl
@[simp] theorem State.setSlot_phy_errMac (s : State) (e : ErrorKind) : (s.setSlot .phy e).errMac = s.errMac := rfl
@[simp] theorem State.setSlot_mac_errMac (s : State) (e : ErrorKind) : (s.setSlot .mac e).errMac = e := rfl
@[simp] theorem State.setSlot_app_errMac (s : State) (e : ErrorKind) : (s.setSlot .app e).errMac = s.errMac := rfl
@[simp] theorem State.setSlot_phy_errApp (s : State) (e : ErrorKind) : (s.setSlot .phy e).errApp = s.errApp := rfl
@[simp] theorem State.setSlot_mac_errApp (s : State) (e : ErrorKind) : (s.setSlot .mac e).errApp = s.errApp := rfl
@[simp] theorem State.setSlot_app_errApp (s : State) (e : ErrorKind) : (s.setSlot .app e).errApp = e := rfl
@[simp] theorem State.setSlot_dir (s : State) (l : Layer) (e : ErrorKind) : (s.setSlot l e).dir = s.dir := by
  cases l <;> rfl
@[simp] theorem State.setSlot_rxQueue (s : State) (l : Layer) (e : ErrorKind) : (s.setSlot l e).rxQueue = s.rxQueue := by
  cases l <;> rfl
@[simp] theorem State.setSlot_arrivals (s : State) (l : Layer) (e : ErrorKind) : (s.setSlot l e).arrivals = s.arrivals := by
  cases l <;> rfl
@[simp] theorem State.setSlot_commands (s : State) (l : Layer) (e : ErrorKind) : (s.setSlot l e).commands = s.commands := by
  cases l <;> rfl
@[simp] theorem State.setSlot_pending (s : State) (l : Layer) (e : ErrorKind) : (s.setSlot l e).pending = s.pending := by
  cases l <;> rfl
@[simp] theorem State.setSlot_result (s : State) (l : Layer) (e : ErrorKind) : (s.setSlot l e).result = s.result := by
  cases l <;> rfl
@[simp] theorem State.setSlot_lineLog (s : State) (l : Layer) (e : ErrorKind) : (s.setSlot l e).lineLog = s.lineLog := by
  cases l <;> rfl
@[simp] theorem State.setSlot_writeReplies (s : State) (l : Layer) (e : ErrorKind) : (s.setSlot l e).writeReplies = s.writeReplies := by
  cases l <;> rfl

@[simp] theorem State.setSlot_slot (s : State) (l : Layer) (e : ErrorKind) : (s.setSlot l e).slot l = e := by
  cases l <;> rfl

/-- A slot write leaves the other layers' slots. -/
theorem State.setSlot_slot_other (s : State) {l k : Layer} (e : ErrorKind) (h : k ≠ l) :
    (s.setSlot l e).slot k = s.slot k := by
  cases l <;> cases k <;> first | rfl | exact absurd rfl h

/-! ### raise, advise, finish: what each says about the slot and the result -/

/-- `raise` writes its slot and the result, and nothing else. -/
theorem State.raise_eq (s : State) (l : Layer) (e : ErrorKind) :
    s.raise l e = { s.setSlot l e with result := some (.err e) } := rfl

/-- `finish` clears its slot and gives the result, and nothing else. -/
theorem State.finish_eq (s : State) (l : Layer) (r : Result) :
    s.finish l r = { s.setSlot l .noError with result := some r } := rfl

@[simp] theorem State.raise_result (s : State) (l : Layer) (e : ErrorKind) :
    (s.raise l e).result = some (.err e) := rfl

@[simp] theorem State.finish_result (s : State) (l : Layer) (r : Result) : (s.finish l r).result = some r := rfl

@[simp] theorem State.raise_slot (s : State) (l : Layer) (e : ErrorKind) : (s.raise l e).slot l = e := by
  cases l <;> rfl

@[simp] theorem State.finish_slot (s : State) (l : Layer) (r : Result) : (s.finish l r).slot l = .noError := by
  cases l <;> rfl

@[simp] theorem State.raise_cfg (s : State) (l : Layer) (e : ErrorKind) : (s.raise l e).cfg = s.cfg := by
  cases l <;> rfl
@[simp] theorem State.finish_cfg (s : State) (l : Layer) (r : Result) : (s.finish l r).cfg = s.cfg := by
  cases l <;> rfl
@[simp] theorem State.raise_sync (s : State) (l : Layer) (e : ErrorKind) : (s.raise l e).sync = s.sync := by
  cases l <;> rfl
@[simp] theorem State.finish_sync (s : State) (l : Layer) (r : Result) : (s.finish l r).sync = s.sync := by
  cases l <;> rfl
@[simp] theorem State.raise_acc (s : State) (l : Layer) (e : ErrorKind) : (s.raise l e).acc = s.acc := by
  cases l <;> rfl
@[simp] theorem State.finish_acc (s : State) (l : Layer) (r : Result) : (s.finish l r).acc = s.acc := by
  cases l <;> rfl
@[simp] theorem State.raise_rxbuf (s : State) (l : Layer) (e : ErrorKind) : (s.raise l e).rxbuf = s.rxbuf := by
  cases l <;> rfl
@[simp] theorem State.finish_rxbuf (s : State) (l : Layer) (r : Result) : (s.finish l r).rxbuf = s.rxbuf := by
  cases l <;> rfl
@[simp] theorem State.raise_dir (s : State) (l : Layer) (e : ErrorKind) : (s.raise l e).dir = s.dir := by
  cases l <;> rfl
@[simp] theorem State.finish_dir (s : State) (l : Layer) (r : Result) : (s.finish l r).dir = s.dir := by
  cases l <;> rfl
@[simp] theorem State.raise_rxQueue (s : State) (l : Layer) (e : ErrorKind) : (s.raise l e).rxQueue = s.rxQueue := by
  cases l <;> rfl
@[simp] theorem State.finish_rxQueue (s : State) (l : Layer) (r : Result) : (s.finish l r).rxQueue = s.rxQueue := by
  cases l <;> rfl
@[simp] theorem State.raise_arrivals (s : State) (l : Layer) (e : ErrorKind) : (s.raise l e).arrivals = s.arrivals := by
  cases l <;> rfl
@[simp] theorem State.finish_arrivals (s : State) (l : Layer) (r : Result) : (s.finish l r).arrivals = s.arrivals := by
  cases l <;> rfl
@[simp] theorem State.raise_commands (s : State) (l : Layer) (e : ErrorKind) : (s.raise l e).commands = s.commands := by
  cases l <;> rfl
@[simp] theorem State.finish_commands (s : State) (l : Layer) (r : Result) : (s.finish l r).commands = s.commands := by
  cases l <;> rfl
@[simp] theorem State.raise_pending (s : State) (l : Layer) (e : ErrorKind) : (s.raise l e).pending = s.pending := by
  cases l <;> rfl
@[simp] theorem State.finish_pending (s : State) (l : Layer) (r : Result) : (s.finish l r).pending = s.pending := by
  cases l <;> rfl
@[simp] theorem State.raise_lineLog (s : State) (l : Layer) (e : ErrorKind) : (s.raise l e).lineLog = s.lineLog := by
  cases l <;> rfl
@[simp] theorem State.finish_lineLog (s : State) (l : Layer) (r : Result) : (s.finish l r).lineLog = s.lineLog := by
  cases l <;> rfl
@[simp] theorem State.raise_writeReplies (s : State) (l : Layer) (e : ErrorKind) : (s.raise l e).writeReplies = s.writeReplies := by
  cases l <;> rfl
@[simp] theorem State.finish_writeReplies (s : State) (l : Layer) (r : Result) : (s.finish l r).writeReplies = s.writeReplies := by
  cases l <;> rfl

/-! ### deliver -/

/-- Delivery moves the oldest batch to the tail of the queue and touches nothing else. -/
theorem State.deliver_eq (s : State) :
    s.deliver = { s with rxQueue := s.rxQueue ++ s.arrivals.headD [], arrivals := s.arrivals.tail } := by
  cases s with
  | mk cfg sync acc rxbuf ep em ea dir q arr cmds pend res log wr =>
    cases arr <;> simp [State.deliver, State.lineAppend]

@[simp] theorem State.deliver_cfg (s : State) : s.deliver.cfg = s.cfg := by
  rw [State.deliver_eq]
@[simp] theorem State.deliver_sync (s : State) : s.deliver.sync = s.sync := by
  rw [State.deliver_eq]
@[simp] theorem State.deliver_acc (s : State) : s.deliver.acc = s.acc := by
  rw [State.deliver_eq]
@[simp] theorem State.deliver_rxbuf (s : State) : s.deliver.rxbuf = s.rxbuf := by
  rw [State.deliver_eq]
@[simp] theorem State.deliver_errPhy (s : State) : s.deliver.errPhy = s.errPhy := by
  rw [State.deliver_eq]
@[simp] theorem State.deliver_errMac (s : State) : s.deliver.errMac = s.errMac := by
  rw [State.deliver_eq]
@[simp] theorem State.deliver_errApp (s : State) : s.deliver.errApp = s.errApp := by
  rw [State.deliver_eq]
@[simp] theorem State.deliver_dir (s : State) : s.deliver.dir = s.dir := by
  rw [State.deliver_eq]
@[simp] theorem State.deliver_commands (s : State) : s.deliver.commands = s.commands := by
  rw [State.deliver_eq]
@[simp] theorem State.deliver_pending (s : State) : s.deliver.pending = s.pending := by
  rw [State.deliver_eq]
@[simp] theorem State.deliver_result (s : State) : s.deliver.result = s.result := by
  rw [State.deliver_eq]
@[simp] theorem State.deliver_lineLog (s : State) : s.deliver.lineLog = s.lineLog := by
  rw [State.deliver_eq]
@[simp] theorem State.deliver_writeReplies (s : State) : s.deliver.writeReplies = s.writeReplies := by
  rw [State.deliver_eq]

end Sys2Proof.Machine
end

