-- ==== Sys2Proof/Laws/Line.lean ====
section
/-! SUPPORT. The transmit side of the transport: what one write and the bracketed sequence do (spec 43 R171, R173, 44
R193). -/
namespace Sys2Proof.Machine

/-- A write that is not cut short. -/
theorem State.write_full {s : State} {bytes : List Byte} (h : TakesWhole [bytes] s.writeReplies) :
    s.write bytes =
      ({ s with lineLog := s.lineLog ++ [.write bytes bytes], writeReplies := s.writeReplies.drop 1 }, bytes.length) := by
  unfold State.write
  cases hw : s.writeReplies with
  | nil =>
    cases s
    simp_all
  | cons r rest =>
    rw [hw] at h
    simp [h.1]

/-- The first piece and the rest. -/
theorem TakesWhole.head {p : List Byte} {pieces : List (List Byte)} {replies : List WriteReply}
    (h : TakesWhole (p :: pieces) replies) : TakesWhole [p] replies := by
  cases replies with
  | nil => trivial
  | cons r rest => exact ⟨h.1, trivial⟩

theorem TakesWhole.tail {p : List Byte} {pieces : List (List Byte)} {replies : List WriteReply}
    (h : TakesWhole (p :: pieces) replies) : TakesWhole pieces (replies.drop 1) := by
  cases replies with
  | nil => cases pieces <;> trivial
  | cons r rest => exact h.2

/-- A write cut short. -/
theorem State.write_short {s : State} {bytes : List Byte} {r : WriteReply} {rest : List WriteReply}
    (hw : s.writeReplies = r :: rest) (h : r.count < bytes.length) :
    s.write bytes =
      ({ s with lineLog := s.lineLog ++ [.write bytes (bytes.take r.reached)], writeReplies := rest }, r.count) := by
  have : ¬ bytes.length ≤ r.count := by omega
  simp [State.write, hw, this]

/-- Pieces that are all taken whole. -/
theorem writeAll_full (pieces : List (List Byte)) {s : State} (h : TakesWhole pieces s.writeReplies) :
    writeAll pieces s =
      ({ s with
          lineLog := s.lineLog ++ pieces.map (fun p => .write p p)
          writeReplies := s.writeReplies.drop pieces.length }, true) := by
  induction pieces generalizing s with
  | nil => simp [writeAll]
  | cons p pieces ih =>
    simp only [writeAll, State.write_full h.head, lt_irrefl, if_false]
    rw [ih h.tail]
    simp [Nat.add_comm]

/-- A short write after full ones: what follows it is not written (43 R173). -/
theorem writeAll_short (done : List (List Byte)) (piece : List Byte) (rest : List (List Byte)) {s : State}
    {pre post : List WriteReply} {r : WriteReply} (hpre : TakesWhole done pre) (hlen : pre.length = done.length)
    (hw : s.writeReplies = pre ++ r :: post) (hr : r.count < piece.length) :
    writeAll (done ++ piece :: rest) s =
      ({ s with
          lineLog := s.lineLog ++ done.map (fun p => .write p p) ++ [.write piece (piece.take r.reached)]
          writeReplies := post }, false) := by
  induction done generalizing s pre with
  | nil =>
    have : pre = [] := List.length_eq_zero_iff.mp hlen
    subst this
    simp [writeAll, State.write_short hw hr, hr]
  | cons p done ih =>
    cases pre with
    | nil => simp at hlen
    | cons r0 pre =>
      have h1 : TakesWhole [p] s.writeReplies := by
        rw [hw]
        exact ⟨hpre.1, trivial⟩
      simp only [List.cons_append, writeAll, State.write_full h1, lt_irrefl, if_false]
      rw [ih hpre.2 (by simpa using hlen) (by simp [hw])]
      simp

/-- The bracketed sequence when every write is taken whole (43 R171). -/
theorem putOnLine_full {raw : List Byte} {s : State} (h : TakesWhole [[s.cfg.delim], raw, [s.cfg.delim]] s.writeReplies) :
    putOnLine raw s =
      { s with
        dir := .rx
        lineLog := s.lineLog ++
          [.setTransmit, .write [s.cfg.delim] [s.cfg.delim], .write raw raw, .write [s.cfg.delim] [s.cfg.delim], .flush,
            .setReceive]
        writeReplies := s.writeReplies.drop 3
        errPhy := .noError
        result := some (.sent raw.length) } := by
  rw [putOnLine, writeAll_full _ (s := s.setTransmitMode) h]
  simp [State.setTransmitMode, State.flush, State.setReceiveMode, State.finish_eq, State.setSlot]

/-- The bracketed sequence cut short: receive direction again, and `WriteError` (43 R173). -/
theorem putOnLine_short {raw : List Byte} {s : State} {k : Nat} {pre post : List WriteReply} {r : WriteReply}
    {piece : List Byte} (hk : pre.length = k) (hp : [[s.cfg.delim], raw, [s.cfg.delim]][k]? = some piece)
    (hpre : TakesWhole ([[s.cfg.delim], raw, [s.cfg.delim]].take k) pre) (hw : s.writeReplies = pre ++ r :: post)
    (hr : r.count < piece.length) :
    putOnLine raw s =
      { s with
        dir := .rx
        lineLog := s.lineLog ++ shortLog s.cfg.delim raw piece k r.reached
        writeReplies := post
        errPhy := .writeError
        result := some (.err .writeError) } := by
  have hlt : k < 3 := by
    have := (List.getElem?_eq_some_iff.mp hp).1
    simpa using this
  have hsplit : [[s.cfg.delim], raw, [s.cfg.delim]] =
      [[s.cfg.delim], raw, [s.cfg.delim]].take k ++ piece :: [[s.cfg.delim], raw, [s.cfg.delim]].drop (k + 1) := by
    obtain rfl | rfl | rfl : k = 0 ∨ k = 1 ∨ k = 2 := by omega
    all_goals simp_all
  have := writeAll_short ([[s.cfg.delim], raw, [s.cfg.delim]].take k) piece
    ([[s.cfg.delim], raw, [s.cfg.delim]].drop (k + 1)) (s := s.setTransmitMode) (r := r) (post := post) (pre := pre)
    hpre (by simp [hk]; omega) (by simpa using hw) hr
  rw [← hsplit] at this
  rw [putOnLine, this]
  simp [State.setTransmitMode, State.setReceiveMode, State.raise_eq, State.setSlot, shortLog]

/-- Writing touches the line log and the replies only. -/
theorem writeAll_frame (pieces : List (List Byte)) (s : State) :
    ∃ log replies, (writeAll pieces s).1 = { s with lineLog := log, writeReplies := replies } := by
  induction pieces generalizing s with
  | nil => exact ⟨s.lineLog, s.writeReplies, rfl⟩
  | cons p pieces ih =>
    have hw : ∃ log replies, (s.write p).1 = { s with lineLog := log, writeReplies := replies } := by
      unfold State.write
      split
      · exact ⟨_, s.writeReplies, rfl⟩
      · split <;> exact ⟨_, _, rfl⟩
    obtain ⟨log, replies, hw⟩ := hw
    simp only [writeAll]
    split
    · exact ⟨log, replies, hw⟩
    · obtain ⟨log', replies', h⟩ := ih (s.write p).1
      exact ⟨log', replies', by rw [h, hw]⟩

/-- The bracketed sequence, whatever the transport answers (43 R171, R173): receive direction again, a count or
`WriteError`, and nothing else touched. -/
theorem putOnLine_cases (raw : List Byte) (s : State) :
    ∃ log replies,
      putOnLine raw s = { s with
        dir := .rx, lineLog := log, writeReplies := replies, errPhy := .noError, result := some (.sent raw.length) } ∨
      putOnLine raw s = { s with
        dir := .rx, lineLog := log, writeReplies := replies, errPhy := .writeError,
        result := some (.err .writeError) } := by
  obtain ⟨log, replies, h⟩ := writeAll_frame [[s.cfg.delim], raw, [s.cfg.delim]] s.setTransmitMode
  rw [putOnLine, h]
  split
  · exact ⟨_, _, .inl rfl⟩
  · exact ⟨_, _, .inr rfl⟩

/-- TX_PHY, whatever the transport answers: a size error, an encode error, or the bracketed sequence (43 R170 to R173). -/
theorem txPhy_cases {P : Primitives} {payload : List Byte} {size : Nat} {s t : State}
    (h : txPhy P payload size s = .next t) :
    (s.cfg.rxCap < size ∧ t = s.raise .phy .oversize) ∨
    (size ≤ s.cfg.rxCap ∧ size ≤ payload.length ∧ P.encode s.cfg.mode (payload.take size) = none ∧
      t = s.raise .phy .encodeError) ∨
    (size ≤ s.cfg.rxCap ∧ size ≤ payload.length ∧
      ∃ raw, P.encode s.cfg.mode (payload.take size) = some raw ∧ t = putOnLine raw s) := by
  unfold txPhy at h
  split at h
  · cases h
    exact .inl ⟨‹_›, rfl⟩
  split at h
  · cases h
  have h1 : size ≤ s.cfg.rxCap := by omega
  have h2 : size ≤ payload.length := by omega
  split at h
  · cases h
    exact .inr (.inl ⟨h1, h2, ‹_›, rfl⟩)
  · cases h
    exact .inr (.inr ⟨h1, h2, _, ‹_›, rfl⟩)

/-- The state after a TX_MAC: its own size error, or the inner TX_PHY's state with the MAC verdict (43 R174). -/
theorem txMac_cases {P : Primitives} {dst : Byte} {payload : List Byte} {size : Nat} {s t : State}
    (h : txMac P dst payload size s = .next t) :
    (s.cfg.macTxMax < size ∧ t = s.raise .mac .oversize) ∨
    (size ≤ s.cfg.macTxMax ∧ size ≤ payload.length ∧
      ∃ u, txPhy P (macFrame dst s.cfg.localAddr (payload.take size)) (size + 2) s = .next u ∧
        (t = u.finish .mac (.sent size) ∨ t = u.raise .mac .writeError)) := by
  unfold txMac at h
  split at h
  · cases h
    exact .inl ⟨‹_›, rfl⟩
  split at h
  · cases h
  obtain ⟨u, hu, h⟩ : ∃ u, txPhy P (macFrame dst s.cfg.localAddr (payload.take size)) (size + 2) s = .next u ∧
      afterTxPhy size u = .next t := by
    cases ho : txPhy P (macFrame dst s.cfg.localAddr (payload.take size)) (size + 2) s with
    | next u => rw [ho] at h; exact ⟨u, rfl, h⟩
    | fault f => rw [ho] at h; cases h
    | refused r => rw [ho] at h; cases h
  refine .inr ⟨by omega, by omega, u, hu, ?_⟩
  unfold afterTxPhy at h
  split at h
  · split at h
    · cases h
      exact .inl rfl
    · cases h
      exact .inr rfl
  · cases h
    exact .inr rfl

/-- The state after a PKT_TX (43 R175). -/
theorem pktTx_cases {P : Primitives} {dst : Byte} {data : List Byte} {size : Nat} {s t : State}
    (h : pktTx P dst data size s = .next t) :
    (s.cfg.payloadMax < size + 2 ∧ t = s.raise .app .oversize) ∨
    (size + 2 ≤ s.cfg.payloadMax ∧ size ≤ data.length ∧
      ∃ u, txMac P dst (withTrailer P (data.take size)) (size + 2) s = .next u ∧
        (t = u.finish .app (.sent (size + 2)) ∨ t = u.raise .app .writeError)) := by
  unfold pktTx at h
  split at h
  · cases h
    exact .inl ⟨‹_›, rfl⟩
  split at h
  · cases h
  obtain ⟨u, hu, h⟩ : ∃ u, txMac P dst (withTrailer P (data.take size)) (size + 2) s = .next u ∧
      afterTxMac size u = .next t := by
    cases ho : txMac P dst (withTrailer P (data.take size)) (size + 2) s with
    | next u => rw [ho] at h; exact ⟨u, rfl, h⟩
    | fault f => rw [ho] at h; cases h
    | refused r => rw [ho] at h; cases h
  refine .inr ⟨by omega, by omega, u, hu, ?_⟩
  unfold afterTxMac at h
  split at h
  · cases h
    exact .inr rfl
  · cases h
    exact .inl rfl

end Sys2Proof.Machine
end

