-- ==== Sys2Proof/Laws/PerInstr.lean ====
section
/-! SUPPORT. Of every instruction: the word the encoder gives it carries the fixed bits of its row of
spec/opcode_table.json, in that row's format. The rows are copied here from the table, apart from the encoder. -/
namespace Sys2Proof.Laws.RowWord

/-- A row of the opcode table: format, `mask`, `match`. -/
structure Row where
  format : Format
  mask : Byte
  pattern : Byte
deriving DecidableEq, Repr

/-- The row of an instruction, from the table. -/
def row : Instr → Row
  | .rxPhy _ => ⟨.cmd, 0xE7, 0x00⟩
  | .rxMac _ => ⟨.cmd, 0xE7, 0x01⟩
  | .pktRx _ => ⟨.cmd, 0xE7, 0x02⟩
  | .pktRxFrom _ _ => ⟨.cmd, 0xE7, 0x03⟩
  | .txPhy _ _ => ⟨.cmd, 0xFF, 0x04⟩
  | .txMac _ _ _ => ⟨.cmd, 0xFF, 0x05⟩
  | .pktTx _ _ _ => ⟨.cmd, 0xFF, 0x06⟩
  | .phyEmpty => ⟨.phyEvent, 0x10, 0x00⟩
  | .phyStart => ⟨.phyEvent, 0x1C, 0x18⟩
  | .phyResync => ⟨.phyEvent, 0x1E, 0x1C⟩
  | .phyEnd => ⟨.phyEvent, 0x1E, 0x1E⟩
  | .phyAppend => ⟨.phyEvent, 0x1D, 0x14⟩
  | .phyOverflow => ⟨.phyEvent, 0x1D, 0x15⟩
  | .phyNoise => ⟨.phyEvent, 0x1C, 0x10⟩
  | .endDecodeErr _ => ⟨.endOutcome, 0x04, 0x00⟩
  | .endOversize _ => ⟨.endOutcome, 0x06, 0x06⟩
  | .endEmpty _ => ⟨.endOutcome, 0x07, 0x05⟩
  | .endOk _ => ⟨.endOutcome, 0x07, 0x04⟩
  | .macRunt _ => ⟨.macOutcome, 0x04, 0x00⟩
  | .macDrop _ => ⟨.macOutcome, 0x07, 0x04⟩
  | .macAcceptUni _ => ⟨.macOutcome, 0x06, 0x06⟩
  | .macAcceptBcast _ => ⟨.macOutcome, 0x07, 0x05⟩
  | .appNone _ => ⟨.appOutcome, 0x08, 0x00⟩
  | .appRunt _ => ⟨.appOutcome, 0x0C, 0x08⟩
  | .appCkerr _ => ⟨.appOutcome, 0x0E, 0x0C⟩
  | .appSrcDrop _ _ _ => ⟨.appOutcome, 0x0F, 0x0E⟩
  | .appOk _ _ _ _ => ⟨.appOutcome, 0x0F, 0x0F⟩

/-- The encoder's word is a word of the row. -/
def Statement (i : Instr) : Prop :=
  (encode i).format = (row i).format ∧ (encode i).word &&& (row i).mask = (row i).pattern

/-- A command word with a blocking field: the operation number is the fixed part. -/
theorem commandWord_row (op : BitVec 3) (blk : Blk) : commandWord op blk &&& 0xE7 = op.setWidth 8 := by
  revert op
  cases blk <;> decide

theorem rxPhy (blk : Blk) : Statement (.rxPhy blk) := ⟨rfl, commandWord_row 0 blk⟩

theorem rxMac (blk : Blk) : Statement (.rxMac blk) := ⟨rfl, commandWord_row 1 blk⟩

theorem pktRx (blk : Blk) : Statement (.pktRx blk) := ⟨rfl, commandWord_row 2 blk⟩

theorem pktRxFrom (blk : Blk) (e : Byte) : Statement (.pktRxFrom blk e) := ⟨rfl, commandWord_row 3 blk⟩

theorem txPhy (payload : List Byte) (size : Nat) : Statement (.txPhy payload size) :=
  ⟨rfl, (by decide : (0x04 : Byte) &&& 0xFF = 0x04)⟩

theorem txMac (dst : Byte) (payload : List Byte) (size : Nat) : Statement (.txMac dst payload size) :=
  ⟨rfl, (by decide : (0x05 : Byte) &&& 0xFF = 0x05)⟩

theorem pktTx (dst : Byte) (data : List Byte) (size : Nat) : Statement (.pktTx dst data size) :=
  ⟨rfl, (by decide : (0x06 : Byte) &&& 0xFF = 0x06)⟩

theorem phyEmpty : Statement .phyEmpty := ⟨rfl, (by decide : (0x00 : Byte) &&& 0x10 = 0x00)⟩

theorem phyStart : Statement .phyStart := ⟨rfl, (by decide : (0x18 : Byte) &&& 0x1C = 0x18)⟩

theorem phyResync : Statement .phyResync := ⟨rfl, (by decide : (0x1C : Byte) &&& 0x1E = 0x1C)⟩

theorem phyEnd : Statement .phyEnd := ⟨rfl, (by decide : (0x1E : Byte) &&& 0x1E = 0x1E)⟩

theorem phyAppend : Statement .phyAppend := ⟨rfl, (by decide : (0x14 : Byte) &&& 0x1D = 0x14)⟩

theorem phyOverflow : Statement .phyOverflow := ⟨rfl, (by decide : (0x15 : Byte) &&& 0x1D = 0x15)⟩

theorem phyNoise : Statement .phyNoise := ⟨rfl, (by decide : (0x10 : Byte) &&& 0x1C = 0x10)⟩

theorem endDecodeErr (raw : List Byte) : Statement (.endDecodeErr raw) :=
  ⟨rfl, (by decide : (0x00 : Byte) &&& 0x04 = 0x00)⟩

theorem endOversize (raw : List Byte) : Statement (.endOversize raw) :=
  ⟨rfl, (by decide : (0x06 : Byte) &&& 0x06 = 0x06)⟩

theorem endEmpty (raw : List Byte) : Statement (.endEmpty raw) := ⟨rfl, (by decide : (0x05 : Byte) &&& 0x07 = 0x05)⟩

theorem endOk (raw : List Byte) : Statement (.endOk raw) := ⟨rfl, (by decide : (0x04 : Byte) &&& 0x07 = 0x04)⟩

theorem macRunt (f : List Byte) : Statement (.macRunt f) := ⟨rfl, (by decide : (0x00 : Byte) &&& 0x04 = 0x00)⟩

theorem macDrop (f : List Byte) : Statement (.macDrop f) := ⟨rfl, (by decide : (0x04 : Byte) &&& 0x07 = 0x04)⟩

theorem macAcceptUni (f : List Byte) : Statement (.macAcceptUni f) := ⟨rfl, (by decide : (0x06 : Byte) &&& 0x06 = 0x06)⟩

theorem macAcceptBcast (f : List Byte) : Statement (.macAcceptBcast f) :=
  ⟨rfl, (by decide : (0x05 : Byte) &&& 0x07 = 0x05)⟩

theorem appNone (p : List Byte) : Statement (.appNone p) := ⟨rfl, (by decide : (0x00 : Byte) &&& 0x08 = 0x00)⟩

theorem appRunt (p : List Byte) : Statement (.appRunt p) := ⟨rfl, (by decide : (0x08 : Byte) &&& 0x0C = 0x08)⟩

theorem appCkerr (p : List Byte) : Statement (.appCkerr p) := ⟨rfl, (by decide : (0x0C : Byte) &&& 0x0E = 0x0C)⟩

theorem appSrcDrop (src : Byte) (p : List Byte) (e : Byte) : Statement (.appSrcDrop src p e) :=
  ⟨rfl, (by decide : (0x0E : Byte) &&& 0x0F = 0x0E)⟩

theorem appOk (src : Byte) (bcast : Bool) (p : List Byte) (filter : Option Byte) : Statement (.appOk src bcast p filter) :=
  ⟨rfl, (by decide : (0x0F : Byte) &&& 0x0F = 0x0F)⟩

end Sys2Proof.Laws.RowWord
end

