-- ==== Sys2Proof/Laws/Stages.lean ====
section
/-! SUPPORT. One lemma per stage that says everything it can do: the PHY step, the frame end, the MAC and APP stages, one
round of a receive operation. -/
namespace Sys2Proof.Machine

@[simp] theorem andThen_next (s : State) (k : State → Answer) : andThen (.next s) k = k s := rfl

theorem andThen_eq_next {o : Answer} {k : State → Answer} {t : State} (h : andThen o k = .next t) :
    ∃ s, o = .next s ∧ k s = .next t := by
  cases o with
  | next s => exact ⟨s, rfl, h⟩
  | fault f => cases h
  | refused r => cases h

theorem whenClass_eq_next {m : String} {p : Bool} {k : Answer} {t : State} (h : whenClass m p k = .next t) :
    p = true ∧ k = .next t := by
  unfold whenClass at h
  split at h
  · exact ⟨‹_›, h⟩
  · cases h

theorem whenClass_pos {m : String} {p : Bool} {k : Answer} (h : p = true) : whenClass m p k = k := by
  simp [whenClass, h]

/-- The frame end completes, by the table of 30 R81 (40 R109 to R112). -/
theorem performEnd_eq (P : Primitives) (raw : List Byte) (s : State) :
    performEnd P raw s =
      .next { s with
        errPhy := (endResult s.cfg (P.decode s.cfg.mode raw)).1
        result := some (endResult s.cfg (P.decode s.cfg.mode raw)).2 } := by
  unfold performEnd endOk endOversize endDecodeErr endEmpty
  rw [endClass_eq]
  cases hd : P.decode s.cfg.mode raw with
  | fail => simp [whenClass, endResult, State.raise_eq, State.setSlot]
  | tooLong => simp [whenClass, endResult, State.raise_eq, State.setSlot]
  | ok f =>
    by_cases h1 : s.cfg.phyDecMax < f.length
    · simp [whenClass, endResult, h1, State.raise_eq, State.setSlot]
    · by_cases h2 : f.length = 0
      · simp [whenClass, endResult, h2, State.finish_eq, State.setSlot]
      · simp [whenClass, endResult, h1, h2, State.finish_eq, State.setSlot]

/-- The PHY step by the transition table (40 R108), wherever `ACC <= RX_CAP`. -/
theorem phyStep_eq (P : Primitives) {s : State} (h : s.acc ≤ s.cfg.rxCap) :
    phyStep P s = .next (phyAfter P s) := by
  unfold phyStep phyAfter
  cases hq : s.rxQueue with
  | nil =>
    have hc := phyClass_nil hq
    simp [hc, execPhyEmpty, whenClass, State.finish_eq, State.setSlot, hq]
  | cons b q =>
    have hc := phyClass_cons hq
    have ht : s.taken = { s with rxQueue := q } := by simp [State.taken, State.read, hq]
    by_cases hb : b = s.cfg.delim
    · by_cases hs : s.sync = false
      · simp only [hb, hs, if_true] at hc
        simp [hc, execPhyStart, whenClass, State.finish_eq, State.setSlot, ht, State.open, hb, hs]
      · by_cases ha : s.acc = 0
        · simp only [hb, hs, ha, if_true] at hc
          simp [hc, execPhyResync, whenClass, State.finish_eq, State.setSlot, ht, State.unsync, hb, ha, hs]
        · simp only [hb, hs, ha, if_true, if_false] at hc
          simp [hc, phyEnd, whenClass, State.memRead, h, performEnd_eq, ht, State.unsync, hb, ha, hs]
    · by_cases hs : s.sync = false
      · simp only [hb, hs, if_true, if_false] at hc
        simp [hc, execPhyNoise, whenClass, State.advise, State.setSlot, State.respond, ht, hb, hs]
      · by_cases ha : s.acc = s.cfg.rxCap
        · simp only [hb, hs, ha, if_true, if_false] at hc
          simp [hc, execPhyOverflow, whenClass, State.raise_eq, State.setSlot, ht, State.unsync, hb, ha, hs]
        · simp only [hb, hs, ha, if_false] at hc
          have hlt : s.acc < s.cfg.rxCap := by omega
          simp [hc, execPhyAppend, whenClass, State.read, State.memWrite, hq, hlt, State.advance, State.finish_eq,
            State.setSlot, hb, ha, hs]

/-- What a PHY step answers when it answers a next state, in every state (40 R108). -/
theorem phyStep_next {P : Primitives} {s t : State} (h : phyStep P s = .next t) : t = phyAfter P s := by
  by_cases ha : s.acc ≤ s.cfg.rxCap
  · rw [phyStep_eq P ha] at h
    exact (Host.Outcome.next.inj h).symm
  unfold phyStep at h
  unfold phyAfter
  cases hq : s.rxQueue with
  | nil =>
    have hc := phyClass_nil hq
    simp [hc, execPhyEmpty, whenClass, State.finish_eq, State.setSlot] at h
    simp [← h, hq]
  | cons b q =>
    have hc := phyClass_cons hq
    have ht : s.taken = { s with rxQueue := q } := by simp [State.taken, State.read, hq]
    have h0 : ¬ s.acc = 0 := by omega
    have hf : ¬ s.acc = s.cfg.rxCap := by omega
    have hlt : ¬ s.acc < s.cfg.rxCap := by omega
    by_cases hb : b = s.cfg.delim
    · by_cases hs : s.sync = false
      · simp only [hb, hs, if_true] at hc
        simp [hc, execPhyStart, whenClass, State.finish_eq, State.setSlot, ht, State.open] at h
        simp [← h, hb, hs]
      · simp only [hb, hs, h0, if_true, if_false] at hc
        simp [hc, phyEnd, whenClass, State.memRead, ha] at h
    · by_cases hs : s.sync = false
      · simp only [hb, hs, if_true, if_false] at hc
        simp [hc, execPhyNoise, whenClass, State.advise, State.setSlot, State.respond, ht] at h
        simp [← h, hb, hs]
      · simp only [hb, hs, hf, if_false] at hc
        simp [hc, execPhyAppend, whenClass, State.read, State.memWrite, hq, hlt] at h

/-- The MAC stage completes, by the table of 30 R82 (41 R131 to R136, R138). -/
theorem macStage_eq (s : State) : macStage s = .next (macAfter s) := by
  unfold macStage macAfter
  cases hr : s.result with
  | none => simp [macResult, State.finish_eq, State.setSlot]
  | some r =>
    cases r with
    | frame f =>
      simp only [performMac, execMacRunt, execMacDrop, execMacAcceptUni, execMacAcceptBcast, macClass_eq, macResult]
      by_cases h1 : f.length < 2
      · simp [h1, whenClass, State.raise_eq, State.setSlot]
      · by_cases h2 : frameDst f = s.cfg.localAddr
        · simp [h1, h2, whenClass, acceptFrame, State.advise, State.setSlot, State.respond]
        · by_cases h3 : frameDst f = bcastAddr
          · simp only [h1, h2, if_false]
            simp only [h3, if_true] at h2 ⊢
            simp [whenClass, acceptFrame, State.advise, State.setSlot, State.respond]
          · simp [h1, h2, h3, whenClass, State.finish_eq, State.setSlot]
    | err e => simp [macResult, State.raise_eq, State.setSlot]
    | _ => simp [macResult, State.finish_eq, State.setSlot]

/-- An accepted frame's classification completes, by the table of 30 R83 (42 R151 to R155). -/
theorem performApp_eq (P : Primitives) (src : Byte) (bcast : Bool) (p : List Byte) (filter : Option Byte) (s : State) :
    performApp P src bcast p filter s =
      .next { s with
        errApp := (appResult P filter (some (.accept src bcast p))).1
        result := some (appResult P filter (some (.accept src bcast p))).2 } := by
  simp only [performApp, appNone, appRunt, appCkerr, filteredDrop, appSrcDrop, appOk, appClass_eq, appResult]
  by_cases h1 : p.length = 0
  · simp [h1, whenClass, State.finish_eq, State.setSlot]
  · by_cases h2 : p.length = 1
    · simp [h2, whenClass, State.raise_eq, State.setSlot]
    · by_cases h3 : rxChecksum p = P.checksum seed (appData p)
      · cases filter with
        | none => simp [h1, h2, h3, whenClass, State.finish_eq, State.setSlot]
        | some e =>
          by_cases h4 : e = src
          · simp [h1, h2, h3, h4, whenClass, State.finish_eq, State.setSlot]
          · simp [h1, h2, h3, h4, whenClass, State.finish_eq, State.setSlot]
      · simp [h1, h2, h3, whenClass, State.raise_eq, State.setSlot]

/-- The APP stage completes (42 R150). -/
theorem appStage_eq (P : Primitives) (filter : Option Byte) (s : State) :
    appStage P filter s = .next (appAfter P filter s) := by
  unfold appStage appAfter
  cases hr : s.result with
  | none => simp [appResult, State.finish_eq, State.setSlot]
  | some r =>
    cases r with
    | accept src bcast p => simpa using performApp_eq P src bcast p filter s
    | err e => simp [appResult, State.raise_eq, State.setSlot]
    | dropped => simp [appResult, State.finish_eq, State.setSlot]
    | _ => simp [appResult, State.finish_eq, State.setSlot]

theorem upperStages_eq (P : Primitives) (op : RxOp) (s : State) :
    upperStages P op s = .next (upperAfter P op s) := by
  cases op <;> simp [upperStages, upperAfter, macStage_eq, appStage_eq]

/-- One round of a receive operation, wherever `ACC <= RX_CAP` (40 R113, R115, 41 R137, R139, 42 R156, R159). -/
theorem receive_eq (P : Primitives) (blk : Blk) (op : RxOp) {s : State} (h : s.acc ≤ s.cfg.rxCap) :
    receive P blk op s =
      if blocks s.cfg blk ∧ (phyAfter P s).result = some .none then
        .next { phyAfter P s with pending := some op, result := none }
      else .next (upperAfter P op { phyAfter P s with pending := none }) := by
  simp only [receive, phyStep_eq P h, andThen_next, afterPhy, upperStages_eq]

/-- What a receive operation answers when it answers a next state, in every state. -/
theorem receive_next {P : Primitives} {blk : Blk} {op : RxOp} {s t : State} (h : receive P blk op s = .next t) :
    t = if blocks s.cfg blk ∧ (phyAfter P s).result = some .none then
          { phyAfter P s with pending := some op, result := none }
        else upperAfter P op { phyAfter P s with pending := none } := by
  obtain ⟨u, hu, h⟩ := andThen_eq_next h
  rw [phyStep_next hu] at h
  simp only [afterPhy, upperStages_eq] at h
  split at h
  · next hc => rw [if_pos hc]; exact (Host.Outcome.next.inj h).symm
  · next hc => rw [if_neg hc]; exact (Host.Outcome.next.inj h).symm

end Sys2Proof.Machine
end

