-- ==== Sys2Proof/Laws/Step.lean ====
section
/-! SUPPORT. What a step can do: which instructions a command word gives, what the receive instructions call, and the cases
of a step that answers a next state. -/
namespace Sys2Proof.Machine

theorem blockingInstr_eq (op : RxOp) : op.blockingInstr = op.instr .block := by
  rcases op with _ | _ | (_ | e) <;> rfl

/-- The four receive instructions are one operation (40 R113, 41 R139, 42 R156, R159). -/
theorem exec_receive (op : RxOp) (blk : Blk) (s : State) : exec (op.instr blk) s = receive Config.prims blk op s := by
  rcases op with _ | _ | (_ | e) <;> rfl

theorem decodeCommand_operation {w : Byte} {o : Operands} {i : Instr} (h : decodeCommand w o = .ok i) :
    IsOperation i := by
  have hmap : ∀ (k : Blk → Instr) (v : BitVec 2), (decodeBlk v).map k = .ok i → ∃ b, i = k b := by
    intro k v hk
    cases hb : decodeBlk v with
    | ok b => rw [hb] at hk; exact ⟨b, (Except.ok.inj hk).symm⟩
    | error e => rw [hb] at hk; cases hk
  have htx : ∀ (j : Instr) (v : BitVec 2), decodeTransmit v j = .ok i → i = j := by
    intro j v hj
    unfold decodeTransmit at hj
    split at hj
    · exact (Except.ok.inj hj).symm
    · cases hj
  simp only [decodeCommand] at h
  split at h
  · cases h
  split at h
  · obtain ⟨b, rfl⟩ := hmap _ _ h
    exact .inl ⟨.phy, b, rfl⟩
  split at h
  · obtain ⟨b, rfl⟩ := hmap _ _ h
    exact .inl ⟨.mac, b, rfl⟩
  split at h
  · obtain ⟨b, rfl⟩ := hmap _ _ h
    exact .inl ⟨.pkt none, b, rfl⟩
  split at h
  · obtain ⟨b, rfl⟩ := hmap _ _ h
    exact .inl ⟨.pkt (some _), b, rfl⟩
  split at h
  · exact .inr (.inl ⟨_, _, htx _ _ h⟩)
  split at h
  · exact .inr (.inr (.inl ⟨_, _, _, htx _ _ h⟩))
  split at h
  · exact .inr (.inr (.inr ⟨_, _, _, htx _ _ h⟩))
  · cases h

/-- A step that answers a next state was idle, or ran one operation on the delivered state. -/
theorem step_cases {s t : State} (h : step s = .next t) :
    t = s.deliver ∨
    ∃ i rest, IsOperation i ∧ exec i { s.deliver with commands := rest } = .next t := by
  unfold step at h
  simp only [] at h
  split at h
  · next op _ =>
    exact .inr ⟨op.blockingInstr, s.deliver.commands, .inl ⟨op, .block, blockingInstr_eq op⟩, h⟩
  · split at h
    · exact .inl (Host.Outcome.next.inj h).symm
    · split at h
      · next i hd => exact .inr ⟨i, _, decodeCommand_operation hd, h⟩
      · cases h

end Sys2Proof.Machine
end

