-- ==== Sys2Proof/Tests/Slice0.lean ====
section
/-! SUPPORT. The model's own tests. Expected values are from the spec: the words of 30 R84, R87 and spec/opcode_table.json,
the vectors V2 to V6 of file 95 (with the reference codecs and checksums of 44 R200 to R206, which the machine itself never
uses). `witness_` theorems show a state and operands that meet the hypotheses of the obligation they name. -/
namespace Sys2Proof.Tests
open Sys2Proof.Machine

/-! ### Small states -/

/-- Station 0x02 in escaping mode (files 95 sections 2 to 4). -/
abbrev base : State := State.reset

/-- The same with another configuration. -/
def withMode (m : Mode) (max : Nat) : State :=
  { base with cfg := { base.cfg with modeReq := m, payloadMax := max, phyDecMax := max } }

/-- A queue of bytes. -/
def hears (s : State) (q : List Byte) : State := { s with rxQueue := q }

/-- Synchronized with an empty accumulation, and a queue. -/
def opened (s : State) (q : List Byte) : State := { s with sync := true, acc := 0, rxQueue := q }

/-- Synchronized with a full buffer, and a queue. -/
def full (s : State) (q : List Byte) : State := { s with sync := true, acc := s.cfg.rxCap, rxQueue := q }

/-- What a vector's row gives: result, the three slots, `SYNC`, `ACC`. -/
abbrev Row := Option Result × ErrorKind × ErrorKind × ErrorKind × Bool × Nat

def view : Answer → Option Row
  | .next s => some (s.result, s.errPhy, s.errMac, s.errApp, s.sync, s.acc)
  | _ => none

/-- What a transmit vector gives: the result, the three slots, the bytes on the wire, the direction. -/
structure Sent where
  result : Option Result
  slots : List ErrorKind
  wire : List Byte
  dir : Direction
deriving DecidableEq, Repr

def sent : Answer → Option Sent
  | .next s => some ⟨s.result, [s.errPhy, s.errMac, s.errApp], wireOf s.lineLog, s.dir⟩
  | _ => none

abbrev ref : Primitives := Reference.primitives

/-! ### WellFormed: an ill-formed term for each check, refused -/

theorem test_wellFormed_refuses :
    Instr.wellFormed (.txPhy [0x11] 2) = false ∧ Instr.wellFormed (.txMac 0x02 [] 1) = false ∧
    Instr.wellFormed (.pktTx 0x02 [0x11, 0x22] 3) = false ∧ Instr.wellFormed (.endDecodeErr []) = false ∧
    Instr.wellFormed (.endOversize []) = false ∧ Instr.wellFormed (.endEmpty []) = false ∧
    Instr.wellFormed (.endOk []) = false ∧ Instr.wellFormed (.macRunt []) = false ∧
    Instr.wellFormed (.macRunt [0x02, 0x01]) = false ∧ Instr.wellFormed (.macDrop [0x03]) = false ∧
    Instr.wellFormed (.macAcceptUni [0x02]) = false ∧ Instr.wellFormed (.macAcceptBcast [0xFF]) = false ∧
    Instr.wellFormed (.appNone [0x11]) = false ∧ Instr.wellFormed (.appRunt []) = false ∧
    Instr.wellFormed (.appCkerr [0x11]) = false ∧ Instr.wellFormed (.appSrcDrop 0x01 [0x11] 0x05) = false ∧
    Instr.wellFormed (.appSrcDrop 0x05 [0x11, 0x22] 0x05) = false ∧
    Instr.wellFormed (.appOk 0x01 false [0x11] none) = false ∧
    Instr.wellFormed (.appOk 0x01 false [0x11, 0x22] (some 0x05)) = false := by decide

theorem test_wellFormed_accepts :
    Instr.wellFormed (.txPhy [] 0) = true ∧ Instr.wellFormed (.pktTx 0x02 [0x48, 0x49] 2) = true ∧
    Instr.wellFormed (.appOk 0x01 false [0xFF, 0xFF] (some 0x01)) = true := by decide

/-! ### Decode: words written out bit by bit (30 R87: 000bbooo; R84 and the table's encodings) -/

theorem test_decode_commands :
    decode ⟨.cmd, 0b00000000, {}⟩ = .ok (.rxPhy .nonblock) ∧ decode ⟨.cmd, 0b00010000, {}⟩ = .ok (.rxPhy .default) ∧
    decode ⟨.cmd, 0b00001001, {}⟩ = .ok (.rxMac .block) ∧ decode ⟨.cmd, 0b00010010, {}⟩ = .ok (.pktRx .default) ∧
    decode ⟨.cmd, 0b00000011, { expectedSrc := 0x05 }⟩ = .ok (.pktRxFrom .nonblock 0x05) ∧
    decode ⟨.cmd, 0b00000100, { payload := [0x11], size := 1 }⟩ = .ok (.txPhy [0x11] 1) ∧
    decode ⟨.cmd, 0b00000101, { dst := 0x03, payload := [0x11], size := 1 }⟩ = .ok (.txMac 0x03 [0x11] 1) ∧
    decode ⟨.cmd, 0b00000110, { dst := 0x03, payload := [0x11], size := 1 }⟩ = .ok (.pktTx 0x03 [0x11] 1) := by decide

theorem test_decode_reserved :
    decode ⟨.cmd, 0b00000111, {}⟩ = .error .reservedOp ∧ decode ⟨.cmd, 0b00011000, {}⟩ = .error .reservedBlk ∧
    decode ⟨.cmd, 0b00100000, {}⟩ = .error .reservedBits ∧ decode ⟨.cmd, 0b00001100, {}⟩ = .error .blkOnTransmit ∧
    decode ⟨.phyEvent, 0b00100000, {}⟩ = .error .vectorTooWide ∧
    decode ⟨.appOutcome, 0b00010000, {}⟩ = .error .vectorTooWide := by decide

theorem test_decode_events :
    decode ⟨.phyEvent, 0b01111, {}⟩ = .ok .phyEmpty ∧ decode ⟨.phyEvent, 0b11010, {}⟩ = .ok .phyStart ∧
    decode ⟨.phyEvent, 0b11101, {}⟩ = .ok .phyResync ∧ decode ⟨.phyEvent, 0b11110, {}⟩ = .ok .phyEnd ∧
    decode ⟨.phyEvent, 0b10110, {}⟩ = .ok .phyAppend ∧ decode ⟨.phyEvent, 0b10101, {}⟩ = .ok .phyOverflow ∧
    decode ⟨.phyEvent, 0b10011, {}⟩ = .ok .phyNoise := by decide

theorem test_decode_frame_end :
    decode ⟨.endOutcome, 0b011, { payload := [0xDB] }⟩ = .ok (.endDecodeErr [0xDB]) ∧
    decode ⟨.endOutcome, 0b110, { payload := [0x11] }⟩ = .ok (.endOversize [0x11]) ∧
    decode ⟨.endOutcome, 0b101, { payload := [0x01] }⟩ = .ok (.endEmpty [0x01]) ∧
    decode ⟨.endOutcome, 0b100, { payload := [0x11] }⟩ = .ok (.endOk [0x11]) := by decide

theorem test_decode_mac :
    decode ⟨.macOutcome, 0b001, { payload := [0x02] }⟩ = .ok (.macRunt [0x02]) ∧
    decode ⟨.macOutcome, 0b100, { payload := [0x03, 0x01] }⟩ = .ok (.macDrop [0x03, 0x01]) ∧
    decode ⟨.macOutcome, 0b110, { payload := [0x02, 0x01] }⟩ = .ok (.macAcceptUni [0x02, 0x01]) ∧
    decode ⟨.macOutcome, 0b101, { payload := [0xFF, 0x01] }⟩ = .ok (.macAcceptBcast [0xFF, 0x01]) := by decide

theorem test_decode_app :
    decode ⟨.appOutcome, 0b0001, {}⟩ = .ok (.appNone []) ∧
    decode ⟨.appOutcome, 0b1001, { payload := [0x48] }⟩ = .ok (.appRunt [0x48]) ∧
    decode ⟨.appOutcome, 0b1101, { payload := [0xFF, 0xFE] }⟩ = .ok (.appCkerr [0xFF, 0xFE]) ∧
    decode ⟨.appOutcome, 0b1110, { payload := [0xFF, 0xFF], src := 0x01, expectedSrc := 0x05 }⟩ =
      .ok (.appSrcDrop 0x01 [0xFF, 0xFF] 0x05) ∧
    decode ⟨.appOutcome, 0b1111, { payload := [0xFF, 0xFF], src := 0x01, bcast := true }⟩ =
      .ok (.appOk 0x01 true [0xFF, 0xFF] none) := by decide

/-- 95 section 6, the command words. -/
theorem test_decode_table_word :
    decodeTableWord 8 0x08 = some (.rxPhy .block) ∧ decodeTableWord 8 0x13 = some (.pktRxFrom .default 0) ∧
    decodeTableWord 8 0x06 = some (.pktTx 0 [] 0) ∧ decodeTableWord 8 0x07 = none ∧
    decodeTableWord 8 0x1E = some .phyEnd ∧ decodeTableWord 5 0x10 = some .phyNoise ∧
    decodeTableWord 4 0x0F = some (.appOk 0 false [] none) ∧ decodeTableWord 3 0x05 = some (.endEmpty []) := by decide

/-! ### The host's placing -/

theorem test_placed_start : view (step (base.withFetchWord 8 0x18)) =
    some (some .none, .noError, .noError, .noError, true, 0) := by decide

theorem test_placed_reserved : step (base.withFetchWord 8 0x07) = .refused (.reservedCommand .reservedOp) := rfl

/-! ### PHY byte events (V2.1, V2.2, V2.4) -/

theorem test_phyEmpty : view (exec .phyEmpty { base with errPhy := .noiseData }) =
    some (some .none, .noError, .noError, .noError, false, 0) := by decide

theorem test_phyStart : view (exec .phyStart (hears base [0xC0])) =
    some (some .none, .noError, .noError, .noError, true, 0) := by decide

theorem test_phyResync : view (exec .phyResync (opened base [0xC0])) =
    some (some .none, .noError, .noError, .noError, false, 0) := by decide

theorem test_phyAppend : view (exec .phyAppend { hears base [0x22] with sync := true, acc := 1 }) =
    some (some .none, .noError, .noError, .noError, true, 2) := by decide

/-- The sixteenth data byte of V2.4 is stored. -/
theorem test_phyAppend_last : view (exec .phyAppend { hears (withMode .esc 4) [0x1F] with sync := true, acc := 15 }) =
    some (some .none, .noError, .noError, .noError, true, 16) := by decide

/-- The seventeenth overflows, is consumed and not stored. -/
theorem test_phyOverflow : view (exec .phyOverflow (full (withMode .esc 4) [0x77])) =
    some (some (.err .oversize), .oversize, .noError, .noError, false, 0) := by decide

theorem test_phyNoise : view (exec .phyNoise (hears base [0x55])) =
    some (some .none, .noiseData, .noError, .noError, false, 0) := by decide

/-- V2.8: in stuffing mode 0xC0 is an ordinary byte. -/
theorem test_phyNoise_stuff : view (exec .phyNoise (hears (withMode .stuff 64) [0xC0])) =
    some (some .none, .noiseData, .noError, .noError, false, 0) := by decide

/-- V2.1 step 9. -/
theorem test_phyEnd : view (phyEnd ref (base.withRawFrame [0x11, 0x22])) =
    some (some (.frame [0x11, 0x22]), .noError, .noError, .noError, false, 0) := by decide

/-- The event applied where its class does not apply is refused. -/
theorem test_phyStart_refused : exec .phyStart (hears base [0x55]) = .refused (.classDoesNotApply "PHY.START") := rfl

/-! ### Frame ends (V2.5 to V2.8) -/

theorem test_endOk : view (endOk ref [0x02, 0x01, 0xDB, 0xDC, 0xDB, 0xDD] base) =
    some (some (.frame [0x02, 0x01, 0xC0, 0xDB]), .noError, .noError, .noError, false, 0) := by decide

theorem test_endOk_stuff : view (endOk ref [0x02, 0x11, 0x02, 0x22] (withMode .stuff 64)) =
    some (some (.frame [0x11, 0x00, 0x22]), .noError, .noError, .noError, false, 0) := by decide

theorem test_endOversize : view (endOversize ref [0x01, 0x02, 0x03, 0x04, 0x05] (withMode .esc 4)) =
    some (some (.err .oversize), .oversize, .noError, .noError, false, 0) := by decide

theorem test_endDecodeErr : view (endDecodeErr ref [0x02, 0xDB, 0x41] base) =
    some (some (.err .decodeError), .decodeError, .noError, .noError, false, 0) := by decide

theorem test_endDecodeErr_stuff : view (endDecodeErr ref [0x05, 0x11] (withMode .stuff 64)) =
    some (some (.err .decodeError), .decodeError, .noError, .noError, false, 0) := by decide

theorem test_endEmpty : view (endEmpty ref [0x01] (withMode .stuff 64)) =
    some (some .none, .noError, .noError, .noError, false, 0) := by decide

/-! ### MAC outcomes (V3.1, V3.3 to V3.10) -/

theorem test_macRunt : view (exec (.macRunt [0x02]) base) =
    some (some (.err .decodeError), .noError, .decodeError, .noError, false, 0) := by decide

/-- V3.10: no advisory on a dropped frame. -/
theorem test_macDrop : view (exec (.macDrop [0x03, 0x02, 0x48]) base) =
    some (some .dropped, .noError, .noError, .noError, false, 0) := by decide

theorem test_macAcceptUni : view (exec (.macAcceptUni [0x02, 0x01, 0x48, 0x49]) base) =
    some (some (.accept 0x01 false [0x48, 0x49]), .noError, .noError, .noError, false, 0) := by decide

/-- V3.6. -/
theorem test_macAcceptUni_self : view (exec (.macAcceptUni [0x02, 0x02, 0x48, 0x49]) base) =
    some (some (.accept 0x02 false [0x48, 0x49]), .noError, .readSourceIsSelf, .noError, false, 0) := by decide

theorem test_macAcceptBcast : view (exec (.macAcceptBcast [0xFF, 0x01, 0x48, 0x49]) base) =
    some (some (.accept 0x01 true [0x48, 0x49]), .noError, .noError, .noError, false, 0) := by decide

/-- V3.8. -/
theorem test_macAcceptBcast_source : view (exec (.macAcceptBcast [0xFF, 0xFF, 0x48]) base) =
    some (some (.accept 0xFF true [0x48]), .noError, .readSourceIsBroadcast, .noError, false, 0) := by decide

/-! ### APP outcomes (V4.1 to V4.11, V4.17) -/

theorem test_appNone : view (appNone ref [] base) =
    some (some .none, .noError, .noError, .noError, false, 0) := by decide

theorem test_appRunt : view (appRunt ref [0x48] base) =
    some (some (.err .checksumError), .noError, .noError, .checksumError, false, 0) := by decide

/-- V4.8: big-endian is required. -/
theorem test_appCkerr : view (appCkerr ref [0x48, 0x49, 0x90, 0x00] base) =
    some (some (.err .checksumError), .noError, .noError, .checksumError, false, 0) := by decide

/-- V4.7. -/
theorem test_appCkerr_data : view (appCkerr ref [0x49, 0x49, 0x00, 0x90] base) =
    some (some (.err .checksumError), .noError, .noError, .checksumError, false, 0) := by decide

/-- V4.10. -/
theorem test_appSrcDrop : view (appSrcDrop ref 0x01 [0x48, 0x49, 0x00, 0x90] 0x05 base) =
    some (some .dropped, .noError, .noError, .noError, false, 0) := by decide

/-- V4.9. -/
theorem test_appOk : view (appOk ref 0x01 false [0x48, 0x49, 0x00, 0x90] (some 0x01) base) =
    some (some (.packet 0x01 false [0x48, 0x49]), .noError, .noError, .noError, false, 0) := by decide

/-- V4.17, with CRC16_REF. -/
theorem test_appOk_crc : view (appOk Reference.primitivesCrc 0x01 false [0x48, 0x49, 0x40, 0x87] none base) =
    some (some (.packet 0x01 false [0x48, 0x49]), .noError, .noError, .noError, false, 0) := by decide +kernel

/-! ### Receive operations, the step at the closing delimiter -/

/-- V2.6. -/
theorem test_rxPhy : view (receive ref .nonblock .phy ((withMode .esc 4).withRawFrame [0x01, 0x02, 0x03, 0x04, 0x05])) =
    some (some (.err .oversize), .oversize, .noError, .noError, false, 0) := by decide

/-- V3.9. -/
theorem test_rxMac : view (receive ref .nonblock .mac (base.withRawFrame [0xFF, 0x02, 0x48])) =
    some (some (.accept 0x02 true [0x48]), .noError, .readSourceIsSelf, .noError, false, 0) := by decide

/-- V3.15. -/
theorem test_rxMac_error : view (receive ref .nonblock .mac (base.withRawFrame [0x02, 0xDB, 0x41])) =
    some (some (.err .decodeError), .decodeError, .decodeError, .noError, false, 0) := by decide

/-- V4.15. -/
theorem test_pktRx : view (receive ref .nonblock (.pkt none) (base.withRawFrame [0x02, 0x02, 0x48, 0x49, 0x00, 0x91])) =
    some (some (.err .checksumError), .noError, .readSourceIsSelf, .checksumError, false, 0) := by decide

/-- V4.12: the bad checksum of a dropped frame is never examined. -/
theorem test_pktRx_drop :
    view (receive ref .nonblock (.pkt none) (base.withRawFrame [0x03, 0x01, 0x48, 0x49, 0x00, 0x91])) =
      some (some .dropped, .noError, .noError, .noError, false, 0) := by decide

/-- V4.16. -/
theorem test_pktRxFrom :
    view (receive ref .nonblock (.pkt (some 0xFF)) (base.withRawFrame [0x02, 0xFF, 0x48, 0x49, 0x00, 0x90])) =
      some (some (.packet 0xFF false [0x48, 0x49]), .noError, .readSourceIsBroadcast, .noError, false, 0) := by decide

/-- V4.11: the checksum is tested before the source. -/
theorem test_pktRxFrom_checksum :
    view (receive ref .nonblock (.pkt (some 0x05)) (base.withRawFrame [0x02, 0x01, 0x48, 0x49, 0x00, 0x91])) =
      some (some (.err .checksumError), .noError, .noError, .checksumError, false, 0) := by decide

/-! ### Transmit operations (V5; station 0x02 in place of 0x01) -/

/-- V5.1. -/
theorem test_txPhy_oversize : sent (exec (.txPhy (List.replicate 137 0x11) 137) base) =
    some ⟨some (.err .oversize), [.oversize, .noError, .noError], [], .rx⟩ := by decide

/-- V5.14. -/
theorem test_txPhy_empty : sent (txPhy ref [] 0 base) =
    some ⟨some (.sent 0), [.noError, .noError, .noError], [0xC0, 0xC0], .rx⟩ := by decide

/-- V5.5. -/
theorem test_txMac : sent (txMac ref 0x01 [0x48, 0x49] 2 base) =
    some ⟨some (.sent 2), [.noError, .noError, .noError], [0xC0, 0x01, 0x02, 0x48, 0x49, 0xC0], .rx⟩ := by decide

/-- V5.15. -/
theorem test_txMac_short : sent (txMac ref 0x01 [0x48, 0x49] 2 { base with writeReplies := [⟨0, 0⟩] }) =
    some ⟨some (.err .writeError), [.writeError, .writeError, .noError], [], .rx⟩ := by decide

/-- V5.10, from station 0x01 to 0x02. -/
theorem test_pktTx :
    sent (pktTx ref 0x02 [0xC0, 0xDB] 2 { base with cfg := { base.cfg with localAddr := 0x01 } }) =
      some ⟨some (.sent 4), [.noError, .noError, .noError],
        [0xC0, 0x02, 0x01, 0xDB, 0xDC, 0xDB, 0xDD, 0x01, 0x9A, 0xC0], .rx⟩ := by decide

/-- V5.11, in stuffing mode. -/
theorem test_pktTx_stuff :
    sent (pktTx ref 0x02 [0x00, 0x00] 2
        { withMode .stuff 64 with cfg := { (withMode .stuff 64).cfg with localAddr := 0x01 } }) =
      some ⟨some (.sent 4), [.noError, .noError, .noError],
        [0x00, 0x03, 0x02, 0x01, 0x01, 0x03, 0xFF, 0xFF, 0x00], .rx⟩ := by decide

/-! ### Configuration (V6) and checksums (95 section 4) -/

theorem test_constants :
    (withMode .stuff 245).cfg.mode = .stuff ∧ (withMode .stuff 245).cfg.rxCap = 250 ∧
    (withMode .stuff 246).cfg.mode = .esc ∧ (withMode .stuff 246).cfg.rxCap = 500 ∧
    (withMode .esc 64).cfg.rxCap = 136 ∧ (withMode .esc 2).cfg.appTxMax = 0 := by decide

/-- 30 R86, R88 and 10 R40: an advisory, an error and MODE on the status port. -/
theorem test_status :
    ({ opened base [] with errPhy := .noiseData, errApp := .checksumError } : State).status = ⟨9, 0, 2, true, 0, 1⟩ ∧
    (withMode .stuff 64).status.mode = 0 := by decide

theorem test_checksums :
    Reference.sum16 0xFFFF [0x48, 0x49] = 0x0090 ∧ Reference.crc16 0xFFFF [0x48, 0x49] = 0x4087 ∧
    Reference.crc16 0xFFFF [0x31, 0x32, 0x33, 0x34, 0x35, 0x36, 0x37, 0x38, 0x39] = 0x29B1 := by decide +kernel

/-! ### Witnesses: states and operands that meet the hypotheses of the obligations -/

/-- A good state under way, with a command on the port: PKT_TX(0x02, "HI", 2). -/
abbrev commanded : State := { base with commands := [⟨0x06, { dst := 0x02, payload := [0x48, 0x49], size := 2 }⟩] }

theorem witness_StepRunsDecodedCommand :
    commanded.pending = none ∧ commanded.commands = ⟨0x06, { dst := 0x02, payload := [0x48, 0x49], size := 2 }⟩ :: [] ∧
    decode ⟨.cmd, 0x06, { dst := 0x02, payload := [0x48, 0x49], size := 2 }⟩ = .ok (.pktTx 0x02 [0x48, 0x49] 2) := by
  decide

theorem witness_StepContinuesBlockingOperation :
    ({ base with pending := some (.pkt (some 0x01)) } : State).pending = some (.pkt (some 0x01)) := rfl

theorem witness_StepWithoutCommand : State.reset.pending = none ∧ State.reset.commands = [] := ⟨rfl, rfl⟩

/-- The second clause, at the words where 30 R87's reserved ranges begin. -/
theorem witness_ReservedCommandsRefused :
    ({ base with commands := [⟨0x07, {}⟩] } : State).pending = none ∧
    decode ⟨.cmd, 0x07, {}⟩ = .error .reservedOp ∧ decode ⟨.cmd, 0x18, {}⟩ = .error .reservedBlk ∧
    decode ⟨.cmd, 0x1F, {}⟩ = .error .reservedOp ∧ decode ⟨.cmd, 0x20, {}⟩ = .error .reservedBits ∧
    decode ⟨.cmd, 0x0C, {}⟩ = .error .blkOnTransmit ∧ decode ⟨.cmd, 0x16, {}⟩ = .error .blkOnTransmit := by decide

theorem witness_DecodeEncode :
    Instr.wellFormed (.appSrcDrop 0x01 [0xFF, 0xFF] 0x05) = true ∧ Instr.wellFormed (.endEmpty [0x01]) = true ∧
    Instr.wellFormed (.txMac 0x02 [] 0) = true := by decide

/-- At the boundary `ACC = RX_CAP`. -/
theorem witness_PhyEventClassification : (full base [0x11]).acc ≤ (full base [0x11]).cfg.rxCap := by decide

theorem witness_StageClassification : base.cfg.localAddr ≠ 0xFF := by decide

/-- Both refusals, and the smallest PAYLOAD_MAX accepted (V6.10, V6.7). -/
theorem witness_ConstructionRefusal :
    (⟨0xFF, 64, .esc, false, 0⟩ : Setup).localAddr = 0xFF ∧ (⟨0x02, 1, .esc, false, 0⟩ : Setup).payloadMax < 2 ∧
    (⟨0xFE, 2, .stuff, true, 5⟩ : Setup).localAddr ≠ 0xFF ∧ 2 ≤ (⟨0xFE, 2, .stuff, true, 5⟩ : Setup).payloadMax := by
  decide

theorem witness_ResetValues_InvAtReset :
    ∃ t, construct ⟨0x00, 2, .stuff, true, 5⟩ (hears base [0x11]) = .ok t ∧ t.rxQueue = [0x11] := ⟨_, rfl, rfl⟩

/-- Both modes, at the fall-back's boundary (V6.3, V6.4). -/
theorem witness_DerivedConstants : (withMode .stuff 245).cfg.mode = .stuff ∧ (withMode .stuff 246).cfg.mode = .esc := by
  decide

theorem witness_PhyEmpty : base.rxQueue = [] := rfl

theorem witness_PhyStart : (hears base [0xC0, 0x11]).rxQueue = base.cfg.delim :: [0x11] ∧ base.sync = false := by decide

theorem witness_PhyResync :
    (opened base [0xC0]).rxQueue = base.cfg.delim :: [] ∧ (opened base [0xC0]).sync = true ∧
    (opened base [0xC0]).acc = 0 := by decide

/-- A raw frame of one byte. -/
abbrev oneByte : State := base.withRawFrame [0x11]

theorem witness_PhyEnd :
    oneByte.rxQueue = oneByte.cfg.delim :: [] ∧ oneByte.sync = true ∧ 0 < oneByte.acc ∧ oneByte.acc ≤ oneByte.cfg.rxCap ∧
    ([0x11] : List Byte).length = oneByte.acc ∧
    ∀ i, i < oneByte.acc → ([0x11] : List Byte)[i]? = some (Memory.read oneByte.rxbuf i) := by decide

/-- The boundary `ACC = RX_CAP` of the smallest configuration: twelve raw bytes, here zeros. -/
theorem witness_PhyEnd_full :
    (full (withMode .esc 2) [0xC0]).acc ≤ (withMode .esc 2).cfg.rxCap ∧
    (List.replicate 12 (0x00 : Byte)).length = (full (withMode .esc 2) [0xC0]).acc ∧
    ∀ i, i < 12 → (List.replicate 12 (0x00 : Byte))[i]? = some (Memory.read (full (withMode .esc 2) [0xC0]).rxbuf i) := by
  decide

/-- `ACC` at both ends of its range. -/
theorem witness_PhyAppend :
    (opened base [0x11]).rxQueue = 0x11 :: [] ∧ 0x11 ≠ base.cfg.delim ∧ (opened base [0x11]).acc < base.cfg.rxCap ∧
    Memory.wf (opened base [0x11]).rxbuf ∧ ({ opened base [0x11] with acc := 135 } : State).acc < base.cfg.rxCap := by
  decide

theorem witness_PhyOverflow :
    (full base [0x77]).rxQueue = 0x77 :: [] ∧ 0x77 ≠ base.cfg.delim ∧ (full base [0x77]).sync = true ∧
    (full base [0x77]).acc = base.cfg.rxCap := by decide

theorem witness_PhyNoise : (hears base [0x55]).rxQueue = 0x55 :: [] ∧ 0x55 ≠ base.cfg.delim ∧ base.sync = false := by
  decide

/-- On the machine's own codec; both ends of the length's range. -/
theorem witness_EndOk :
    Config.prims.decode base.cfg.mode [0x11] = .ok [0x11] ∧
    Config.prims.decode base.cfg.mode (List.replicate 64 0x11) = .ok (List.replicate 64 0x11) ∧
    (List.replicate 64 (0x11 : Byte)).length ≤ base.cfg.phyDecMax :=
  ⟨decode_esc_free _ (by decide), decode_esc_free _ (by decide), by decide⟩

/-- A codec that reports too long by itself. -/
abbrev reporting : Primitives := { ref with decodeEscMalformed := fun _ => .tooLong }

theorem witness_EndOversize :
    Config.prims.decode base.cfg.mode (List.replicate 65 0x11) = .ok (List.replicate 65 0x11) ∧
    base.cfg.phyDecMax < (List.replicate 65 (0x11 : Byte)).length ∧ reporting.decode base.cfg.mode [0xDB] = .tooLong :=
  ⟨decode_esc_free _ (by decide), by decide, rfl⟩

/-- V2.7: a reserved byte at the end of the raw frame, at the reference codec. -/
theorem witness_EndDecodeErr : ref.decode base.cfg.mode [0x02, 0xDB] = .fail := rfl

/-- In stuffing mode some raw frame that is not empty decodes to nothing, whatever the codec (30 R81). -/
theorem witness_EndEmpty :
    ∃ raw, 1 ≤ raw.length ∧ Config.prims.decode (withMode .stuff 64).cfg.mode raw = .ok [] := by
  obtain ⟨raw, h⟩ := Config.prims_lawful.stuff_total [] (by decide)
  exact ⟨raw, Config.prims_lawful.stuff_nonempty _ _ h, Config.prims_lawful.stuff_inverse _ _ h⟩

theorem witness_MacDrop : 0x03 ≠ base.cfg.localAddr ∧ (0x03 : Byte) ≠ 0xFF := by decide

theorem witness_MacAccept : base.cfg.localAddr ≠ 0xFF := by decide

/-- Every sixteen-bit value has its two bytes. -/
theorem bytes_of_word (c : Word16) : ∃ hi lo : Byte, hi.toNat * 256 + lo.toNat = c.toNat := by
  refine ⟨BitVec.ofNat 8 (c.toNat / 256), BitVec.ofNat 8 (c.toNat % 256), ?_⟩
  have := c.isLt
  simp only [BitVec.toNat_ofNat]
  omega

theorem witness_AppCkerr : ∃ hi lo : Byte, hi.toNat * 256 + lo.toNat ≠ (Config.prims.checksum 0xFFFF [0x48]).toNat := by
  by_cases h : (0 : Nat) = (Config.prims.checksum 0xFFFF [0x48]).toNat
  · exact ⟨0x00, 0x01, by rw [← h]; decide⟩
  · exact ⟨0x00, 0x00, h⟩

/-- Without a filter and with the source expected; and, for APP.SRC_DROP, with another. -/
theorem witness_AppOk_AppSrcDrop :
    (∃ hi lo : Byte, hi.toNat * 256 + lo.toNat = (Config.prims.checksum 0xFFFF [0x48]).toNat) ∧
    ((none : Option Byte) = none ∨ none = some (0x01 : Byte)) ∧ some (0x01 : Byte) = some 0x01 ∧
    (0x01 : Byte) ≠ 0x05 := ⟨bytes_of_word _, .inl rfl, rfl, by decide⟩

/-- The receive obligations, at the boundary `ACC = RX_CAP`. -/
theorem witness_ReceiveNonblocking : (full base [0x77]).acc ≤ (full base [0x77]).cfg.rxCap := by decide

theorem witness_BlockingTurn :
    base.acc ≤ base.cfg.rxCap ∧ (phyAfter Config.prims base).result = some .none ∧
    (full base [0x77]).acc ≤ base.cfg.rxCap ∧ (phyAfter Config.prims (full base [0x77])).result ≠ some .none :=
  ⟨by decide, rfl, by decide, by
    show some (Result.err .oversize) ≠ some Result.none
    decide⟩

theorem witness_DefaultBlocking :
    ({ base with cfg := { base.cfg with blockingDefault := true } } : State).cfg.blockingDefault = true ∧
    base.cfg.blockingDefault = false := by decide

/-- V5.1, V5.2, V5.3. -/
theorem witness_TransmitOversize : base.cfg.rxCap < 137 ∧ base.cfg.payloadMax < 65 ∧ base.cfg.payloadMax < 63 + 2 := by
  decide

/-- The transport answers exactly what it is given, 1, |raw|, 1; and the size at its upper end, no reply listed. -/
theorem witness_TxPhySends :
    1 ≤ base.cfg.rxCap ∧ 1 ≤ ([0x11] : List Byte).length ∧
    Config.prims.encode base.cfg.mode (([0x11] : List Byte).take 1) = some [0x11] ∧
    TakesWhole [[base.cfg.delim], [0x11], [base.cfg.delim]]
      ({ base with writeReplies := [⟨1, 0⟩, ⟨1, 0⟩, ⟨1, 0⟩] } : State).writeReplies ∧
    136 ≤ base.cfg.rxCap ∧ 136 ≤ (List.replicate 136 (0x11 : Byte)).length ∧
    TakesWhole [[base.cfg.delim], List.replicate 136 0x11, [base.cfg.delim]] base.writeReplies :=
  ⟨by decide, by decide, rfl, ⟨by decide, by decide, by decide, trivial⟩, by decide, by simp, trivial⟩

theorem witness_TxMacSends :
    2 ≤ base.cfg.payloadMax ∧ 2 ≤ ([0x48, 0x49] : List Byte).length ∧
    Config.prims.encode base.cfg.mode (0x01 :: base.cfg.localAddr :: ([0x48, 0x49] : List Byte).take 2) =
      some [0x01, 0x02, 0x48, 0x49] ∧
    TakesWhole [[base.cfg.delim], [0x01, 0x02, 0x48, 0x49], [base.cfg.delim]]
      ({ base with writeReplies := [⟨1, 0⟩, ⟨4, 0⟩, ⟨1, 0⟩] } : State).writeReplies ∧
    64 ≤ base.cfg.payloadMax ∧ 64 ≤ (List.replicate 64 (0x11 : Byte)).length :=
  ⟨by decide, by decide, rfl, ⟨by decide, by decide, by decide, trivial⟩, by decide, by simp⟩

/-- A packet of "HI" has its two checksum bytes and its encoding, whatever the implementation's checksum and codec. -/
theorem packet_of_hi :
    ∃ (hi lo : Byte) (raw : List Byte),
      hi.toNat * 256 + lo.toNat = (Config.prims.checksum 0xFFFF (([0x48, 0x49] : List Byte).take 2)).toNat ∧
      Config.prims.encode base.cfg.mode (0x01 :: base.cfg.localAddr :: (([0x48, 0x49] : List Byte).take 2 ++ [hi, lo])) =
        some raw ∧ 0 < raw.length := by
  obtain ⟨hi, lo, h⟩ := bytes_of_word (Config.prims.checksum 0xFFFF (([0x48, 0x49] : List Byte).take 2))
  have hc : (0x01 :: base.cfg.localAddr :: (([0x48, 0x49] : List Byte).take 2 ++ [hi, lo])).length ≤ base.cfg.rxCap := by
    show 6 ≤ base.cfg.rxCap
    decide
  obtain ⟨raw, hr⟩ := encode_total Config.prims_lawful (c := base.cfg) hc
  exact ⟨hi, lo, raw, h, hr, (encode_length Config.prims_lawful hc hr).2.2 (by simp)⟩

/-- The transport answers 1, |raw|, 1. -/
theorem witness_PktTxSends :
    2 + 2 ≤ base.cfg.payloadMax ∧ 2 ≤ ([0x48, 0x49] : List Byte).length ∧
    (∃ (hi lo : Byte) (raw : List Byte),
      hi.toNat * 256 + lo.toNat = (Config.prims.checksum 0xFFFF (([0x48, 0x49] : List Byte).take 2)).toNat ∧
      Config.prims.encode base.cfg.mode (0x01 :: base.cfg.localAddr :: (([0x48, 0x49] : List Byte).take 2 ++ [hi, lo])) =
        some raw ∧
      TakesWhole [[base.cfg.delim], raw, [base.cfg.delim]]
        ({ base with writeReplies := [⟨1, 0⟩, ⟨raw.length, 0⟩, ⟨1, 0⟩] } : State).writeReplies) ∧
    62 + 2 ≤ base.cfg.payloadMax ∧ 62 ≤ (List.replicate 62 (0x11 : Byte)).length := by
  obtain ⟨hi, lo, raw, h, hr, _⟩ := packet_of_hi
  exact ⟨by decide, by decide, ⟨hi, lo, raw, h, hr, by decide, le_refl _, by decide, trivial⟩, by decide, by simp⟩

/-- A codec that cannot encode. -/
abbrev failing : Primitives := { ref with encodeStuff := fun _ => none }

theorem witness_TxPhyEncodeFailure :
    1 ≤ (withMode .stuff 64).cfg.rxCap ∧ 1 ≤ ([0x11] : List Byte).length ∧
    failing.encode (withMode .stuff 64).cfg.mode (([0x11] : List Byte).take 1) = none := ⟨by decide, by decide, rfl⟩

/-- Each of the three writes as the short one, the ones before it answered with exactly their length. -/
theorem witness_TxPhyShortWrite :
    Config.prims.encode base.cfg.mode (([0x11] : List Byte).take 1) = some [0x11] ∧
    ([[base.cfg.delim], [0x11], [base.cfg.delim]] : List (List Byte))[0]? = some [0xC0] ∧
    TakesWhole (([[base.cfg.delim], [0x11], [base.cfg.delim]] : List (List Byte)).take 0) [] ∧
    ([[base.cfg.delim], [0x11], [base.cfg.delim]] : List (List Byte))[1]? = some [0x11] ∧
    TakesWhole (([[base.cfg.delim], [0x11], [base.cfg.delim]] : List (List Byte)).take 1) [⟨1, 0⟩] ∧
    ([[base.cfg.delim], [0x11], [base.cfg.delim]] : List (List Byte))[2]? = some [0xC0] ∧
    TakesWhole (([[base.cfg.delim], [0x11], [base.cfg.delim]] : List (List Byte)).take 2) [⟨1, 0⟩, ⟨1, 0⟩] ∧
    ({ base with writeReplies := [⟨1, 0⟩, ⟨1, 0⟩, ⟨0, 0⟩] } : State).writeReplies = [⟨1, 0⟩, ⟨1, 0⟩] ++ ⟨0, 0⟩ :: [] ∧
    (0 : Nat) < ([0xC0] : List Byte).length :=
  ⟨rfl, by decide, trivial, by decide, ⟨by decide, trivial⟩, by decide, ⟨by decide, by decide, trivial⟩, by decide,
    by decide⟩

/-- The second write of a TX_MAC and the third of a PKT_TX as the short one. -/
theorem witness_WriteErrorPropagates :
    (2 ≤ ([0x48, 0x49] : List Byte).length ∧ 2 ≤ base.cfg.payloadMax ∧ 2 + 2 ≤ base.cfg.payloadMax) ∧
    (Config.prims.encode base.cfg.mode (0x01 :: base.cfg.localAddr :: ([0x48, 0x49] : List Byte).take 2) =
        some [0x01, 0x02, 0x48, 0x49] ∧
      ([[base.cfg.delim], [0x01, 0x02, 0x48, 0x49], [base.cfg.delim]] : List (List Byte))[1]? =
        some [0x01, 0x02, 0x48, 0x49] ∧
      ({ base with writeReplies := [⟨1, 0⟩, ⟨3, 3⟩] } : State).writeReplies = [⟨1, 0⟩] ++ ⟨3, 3⟩ :: [] ∧
      TakesWhole (([[base.cfg.delim], [0x01, 0x02, 0x48, 0x49], [base.cfg.delim]] : List (List Byte)).take 1) [⟨1, 0⟩] ∧
      3 < ([0x01, 0x02, 0x48, 0x49] : List Byte).length) ∧
    ∃ (hi lo : Byte) (raw : List Byte),
      hi.toNat * 256 + lo.toNat = (Config.prims.checksum 0xFFFF (([0x48, 0x49] : List Byte).take 2)).toNat ∧
      Config.prims.encode base.cfg.mode (0x01 :: base.cfg.localAddr :: (([0x48, 0x49] : List Byte).take 2 ++ [hi, lo])) =
        some raw ∧
      ([[base.cfg.delim], raw, [base.cfg.delim]] : List (List Byte))[2]? = some [base.cfg.delim] ∧
      ({ base with writeReplies := [⟨1, 0⟩, ⟨raw.length, 0⟩, ⟨0, 0⟩] } : State).writeReplies =
        [⟨1, 0⟩, ⟨raw.length, 0⟩] ++ ⟨0, 0⟩ :: [] ∧
      TakesWhole ([[base.cfg.delim], raw, [base.cfg.delim]].take 2) [⟨1, 0⟩, ⟨raw.length, 0⟩] := by
  obtain ⟨hi, lo, raw, h, hr, _⟩ := packet_of_hi
  exact ⟨by decide, ⟨rfl, by decide, by decide, ⟨by decide, trivial⟩, by decide⟩,
    hi, lo, raw, h, hr, rfl, rfl, by decide, le_refl _, trivial⟩

/-- A good state that is not reset: synchronized, two bytes accumulated. -/
abbrev underWay : State := { base with sync := true, acc := 2, rxbuf := [(0, 0x11), (1, 0x22)] }

theorem inv_underWay : underWay.Inv where
  memory := by decide
  inside := by decide
  accBound := by decide
  idle := by decide
  clean := by decide
  config := by decide
  direction := rfl

theorem witness_StepKeepsInv : underWay.Inv ∧ step underWay = .next underWay := ⟨inv_underWay, rfl⟩

theorem witness_StepCompletes :
    ({ underWay with commands := commanded.commands } : State).Inv ∧
    ({ underWay with commands := commanded.commands } : State).CommandsGood := by
  refine ⟨⟨by decide, by decide, by decide, by decide, by decide, by decide, rfl⟩, ?_⟩
  intro c hc
  obtain rfl : c = ⟨0x06, { dst := 0x02, payload := [0x48, 0x49], size := 2 }⟩ := by simpa using hc
  exact ⟨.pktTx 0x02 [0x48, 0x49] 2, by decide, by decide⟩

/-- One state for each kind of stop. -/
theorem witness_StopsByName :
    phyClass base ≠ .start ∧ endClass Config.prims base.cfg [0x11] ≠ .empty ∧ macClass base.cfg [0x02, 0x01] ≠ .drop ∧
    appClass Config.prims 0x01 (some 0x05) [0x48] ≠ .srcDrop ∧ (([0x11] : List Byte).length < 2 ∧ 2 ≤ base.cfg.rxCap) ∧
    2 + 2 ≤ base.cfg.payloadMax ∧ base.cfg.rxCap < ({ base with acc := 137 } : State).acc ∧
    phyClass { hears base [0x11] with sync := true, acc := 137 } = .append ∧
    phyClass { hears base [0xC0] with sync := true, acc := 137 } = .frameEnd := by
  refine ⟨by decide, ?_, by decide, ?_, by decide, by decide, by decide, by decide, by decide⟩
  · rw [endClass, show Config.prims.decode base.cfg.mode [0x11] = .ok [0x11] from decode_esc_free _ (by decide)]
    decide
  · rw [appClass_eq]
    decide

/-- A next state of an event, of a receive and of a transmit operation. -/
theorem witness_Frames :
    (∃ t, exec .phyAppend (opened base [0x11]) = .next t ∧ t.rxbuf = [(0, 0x11)]) ∧
    (∃ t, exec (.rxMac .nonblock) base = .next t) ∧ (∃ t, exec (.rxPhy .nonblock) base = .next t) ∧
    (∃ t, exec (.txPhy [0x11] 1) base = .next t) ∧ ∃ t, exec (.txMac 0x02 [0x11] 1) base = .next t :=
  ⟨⟨_, rfl, rfl⟩, ⟨_, rfl⟩, ⟨_, rfl⟩, ⟨_, rfl⟩, ⟨_, rfl⟩⟩

/-- An overflow under each receive operation. -/
theorem witness_HardErrorLeavesNoSync :
    (∃ t, exec (RxOp.phy.instr .nonblock) (full base [0x77]) = .next t ∧ t.result = some (.err .oversize)) ∧
    (∃ t, exec (RxOp.mac.instr .block) (full base [0x77]) = .next t ∧ t.result = some (.err .oversize)) ∧
    ∃ t, exec ((RxOp.pkt none).instr .nonblock) (full base [0x77]) = .next t ∧ t.result = some (.err .oversize) :=
  ⟨⟨_, rfl, rfl⟩, ⟨_, rfl, rfl⟩, ⟨_, rfl, rfl⟩⟩

theorem witness_NeverRaisedKinds : base.SlotsRaisable ∧ step base = .next base := ⟨⟨rfl, rfl, rfl⟩, rfl⟩

/-- Two bytes accumulated in both, a third cell that differs. -/
theorem witness_StaleCellsUnobservable :
    Memory.wf underWay.rxbuf ∧
    AgreeBelowAcc underWay { underWay with rxbuf := [(0, 0x11), (1, 0x22), (2, 0x33)] } ∧
    Memory.wf ({ underWay with rxbuf := [(0, 0x11), (1, 0x22), (2, 0x33)] } : State).rxbuf :=
  ⟨by decide, ⟨rfl, by decide⟩, by decide⟩

theorem witness_WholeStream :
    Memory.wf base.rxbuf ∧ base.NoSync ∧
    (hears base [0x55, 0xC0, 0x11, 0x22, 0xC0]).rxQueue = [0x55] ++ [base.cfg.delim] ++ [0x11, 0x22] ++ [base.cfg.delim] ∧
    base.cfg.delim ∉ ([0x55] : List Byte) ∧ base.cfg.delim ∉ ([0x11, 0x22] : List Byte) ∧
    1 ≤ ([0x11, 0x22] : List Byte).length ∧ ([0x11, 0x22] : List Byte).length ≤ base.cfg.rxCap :=
  ⟨by decide, ⟨rfl, rfl⟩, by decide, by decide, by decide, by decide, by decide⟩

theorem witness_TransmitReceiveRoundTrip :
    Memory.wf (hears base [0xC0, 0x11, 0xC0]).rxbuf ∧ (hears base [0xC0, 0x11, 0xC0]).NoSync ∧
    base.cfg.phyDecMax = base.cfg.payloadMax ∧ 1 ≤ ([0x11] : List Byte).length ∧
    ([0x11] : List Byte).length ≤ base.cfg.payloadMax ∧ base.writeReplies = [] ∧
    ∃ a', exec (.txPhy [0x11] ([0x11] : List Byte).length) base = .next a' ∧
      wireOf a'.lineLog = wireOf base.lineLog ++ (hears base [0xC0, 0x11, 0xC0]).rxQueue :=
  ⟨by decide, ⟨rfl, rfl⟩, rfl, by decide, by decide, rfl, ⟨_, rfl, rfl⟩⟩

theorem witness_PhaseSlipLosesFrame :
    (opened base [0xC0, 0xA1, 0xA2, 0xC0]).sync = true ∧ (opened base [0xC0, 0xA1, 0xA2, 0xC0]).acc = 0 ∧
    (opened base [0xC0, 0xA1, 0xA2, 0xC0]).rxQueue = [base.cfg.delim] ++ [0xA1, 0xA2] ++ [base.cfg.delim] ++ [] ∧
    base.cfg.delim ∉ ([0xA1, 0xA2] : List Byte) := by decide

theorem sum16_injective (l : List Byte) (a b : Word16) (h : Reference.sum16 a l = Reference.sum16 b l) : a = b := by
  induction l generalizing a b with
  | nil => exact h
  | cons x l ih =>
    have := ih (a + x.setWidth 16) (b + x.setWidth 16) h
    simpa using this

/-- SUM16 meets the detection requirement (44 R205). -/
theorem detects_sum16 : ref.Detects := by
  intro d d' h hs
  obtain ⟨pre, post, x, k, hk, rfl, rfl⟩ := h
  have key : ∀ (u v : Byte), Reference.sum16 0xFFFF (pre ++ u :: post) = Reference.sum16 0xFFFF (pre ++ v :: post) →
      u = v := by
    intro u v huv
    rw [← Reference.sum16_append, ← Reference.sum16_append] at huv
    have h1 := sum16_injective post _ _ huv
    have h2 : u.setWidth 16 = v.setWidth 16 := by simpa using h1
    have h3 := congrArg BitVec.toNat h2
    simp only [BitVec.toNat_setWidth] at h3
    have := u.isLt
    have := v.isLt
    exact BitVec.eq_of_toNat_eq (by omega)
  have hx := key _ _ hs
  have h0 : BitVec.ofNat 8 (2 ^ k) = 0 := by
    have := congrArg (x ^^^ ·) hx
    simpa [← BitVec.xor_assoc] using this.symm
  exact (by decide : ∀ k, k < 8 → BitVec.ofNat 8 (2 ^ k) ≠ 0) k hk h0

/-- V4.5 and V4.7. -/
theorem witness_SingleBitFlipDetected :
    ref.Detects ∧ 2 ≤ ([0x48, 0x49, 0x00, 0x90] : List Byte).length ∧
    rxChecksum [0x48, 0x49, 0x00, 0x90] = calcChecksum ref [0x48, 0x49, 0x00, 0x90] ∧
    OneBitApart [0x48, 0x49, 0x00, 0x90] [0x49, 0x49, 0x00, 0x90] :=
  ⟨detects_sum16, by decide, by decide, ⟨[], [0x49, 0x00, 0x90], 0x48, 0, by decide, by decide, by decide⟩⟩

end Sys2Proof.Tests
end

section
/-! The derived constants (00 R7): each as a function of the mode, and the mode as a function of the configuration. -/
namespace Sys2Proof.Machine

/-- The silent fall-back: a stuffing session whose raw size passes 250 runs in ESC all the same. -/
theorem SessionConfig.mode_eq_esc_iff (c : SessionConfig) :
    c.mode = .esc ↔ c.modeReq = .esc ∨ (c.modeReq = .stuff ∧ 250 < c.payloadMax + 5) := by
  cases hreq : c.modeReq with
  | esc => simp [SessionConfig.mode, hreq]
  | stuff =>
    by_cases hbig : 250 < c.payloadMax + 5 <;> simp [SessionConfig.mode, SessionConfig.stuffSize, hreq, hbig]

theorem SessionConfig.delim_of_stuff {c : SessionConfig} (h : c.mode = .stuff) : c.delim = 0x00 := by
  rw [SessionConfig.delim, h, delimOf]

theorem SessionConfig.delim_of_esc {c : SessionConfig} (h : c.mode = .esc) : c.delim = 0xC0 := by
  rw [SessionConfig.delim, h, delimOf]

theorem SessionConfig.rxCap_of_stuff {c : SessionConfig} (h : c.mode = .stuff) : c.rxCap = c.payloadMax + 5 := by
  simp only [SessionConfig.rxCap, h]

theorem SessionConfig.rxCap_of_esc {c : SessionConfig} (h : c.mode = .esc) : c.rxCap = (c.payloadMax + 4) * 2 := by
  simp only [SessionConfig.rxCap, h]

/-- Settles O14: `MODE` by its fall-back, `DELIM` and `RX_CAP` by the mode; the other constants are their definitions. -/
theorem derivedConstants : Obligations.DerivedConstants := by
  refine ⟨fun c => ⟨c.mode_eq_esc_iff, fun hstuff => ?_, fun hesc => ?_, rfl, rfl⟩, fun _ => rfl, rfl, rfl⟩
  · exact ⟨SessionConfig.delim_of_stuff hstuff, SessionConfig.rxCap_of_stuff hstuff⟩
  · exact ⟨SessionConfig.delim_of_esc hesc, SessionConfig.rxCap_of_esc hesc⟩

end Sys2Proof.Machine
end

section
/-! Session construction (70 R260 to R262): the one session it answers, and its reset values (10 R33). -/
namespace Sys2Proof.Machine

/-- Construction as an equivalence: the configuration must be well-formed, and the session is the reset state with the
configuration and the transport put in. -/
theorem construct_eq_ok_iff {u : Setup} {env t : State} :
    construct u env = .ok t ↔ u.config.wf = true ∧
      t = { State.reset with
        cfg := u.config, rxQueue := env.rxQueue, arrivals := env.arrivals, lineLog := env.lineLog,
        writeReplies := env.writeReplies } := by
  unfold construct
  by_cases hwf : u.config.wf = true
  · simp [hwf, eq_comm]
  · simp [hwf]

/-- Settles O12: a constructed session is the one of `construct_eq_ok_iff`, and each item is a field of it. -/
theorem resetValues : Obligations.ResetValues := by
  intro u env t hok
  obtain ⟨-, rfl⟩ := construct_eq_ok_iff.mp hok
  simp [State.reset, Setup.config]

end Sys2Proof.Machine
end

section
/-! What an instruction does to the receiver: a receive operation and a PHY event run the PHY step, every other
instruction leaves the receiver alone; and RXBUF's only store (20 R51). -/
namespace Sys2Proof.Machine

/-! ### Leaving the receiver alone -/

/-- At most the slots, the result and the transmit side differ: the configuration, `SYNC`, `ACC`, RXBUF, the received
bytes, the command port and the operation under way are as before. -/
def KeepsReceiver (s t : State) : Prop :=
  t = { s with
    errPhy := t.errPhy, errMac := t.errMac, errApp := t.errApp, result := t.result,
    dir := t.dir, lineLog := t.lineLog, writeReplies := t.writeReplies }

theorem KeepsReceiver.acc {s t : State} (h : KeepsReceiver s t) : t.acc = s.acc := by rw [h]

theorem KeepsReceiver.rxbuf {s t : State} (h : KeepsReceiver s t) : t.rxbuf = s.rxbuf := by rw [h]

theorem KeepsReceiver.trans {s t u : State} (hst : KeepsReceiver s t) (htu : KeepsReceiver t u) : KeepsReceiver s u := by
  rw [KeepsReceiver, htu, hst]

theorem State.raise_keepsReceiver (s : State) (l : Layer) (e : ErrorKind) : KeepsReceiver s (s.raise l e) := by
  cases l <;> rfl

theorem State.finish_keepsReceiver (s : State) (l : Layer) (r : Result) : KeepsReceiver s (s.finish l r) := by
  cases l <;> rfl

theorem acceptFrame_keepsReceiver (bcast : Bool) (f : List Byte) (s : State) :
    KeepsReceiver s (acceptFrame bcast f s) := rfl

theorem upperAfter_keepsReceiver (P : Primitives) (op : RxOp) (s : State) : KeepsReceiver s (upperAfter P op s) := by
  cases op <;> rfl

/-- A row that has one next state where its class applies keeps the receiver when that state does. -/
theorem whenClass_keepsReceiver {m : String} {p : Bool} {s t u : State} (hu : KeepsReceiver s u)
    (h : whenClass m p (.next u) = .next t) : KeepsReceiver s t := by
  obtain ⟨-, hnext⟩ := whenClass_eq_next h
  exact Host.Outcome.next.inj hnext ▸ hu

theorem endOk_keepsReceiver {P : Primitives} {raw : List Byte} {s t : State} (h : endOk P raw s = .next t) :
    KeepsReceiver s t := by
  obtain ⟨-, hnext⟩ := whenClass_eq_next h
  split at hnext
  · exact Host.Outcome.next.inj hnext ▸ s.finish_keepsReceiver _ _
  · cases hnext

theorem putOnLine_keepsReceiver (raw : List Byte) (s : State) : KeepsReceiver s (putOnLine raw s) := by
  obtain ⟨log, replies, h | h⟩ := putOnLine_cases raw s
  · rw [h]; rfl
  · rw [h]; rfl

theorem txPhy_keepsReceiver {P : Primitives} {payload : List Byte} {size : Nat} {s t : State}
    (h : txPhy P payload size s = .next t) : KeepsReceiver s t := by
  obtain ⟨-, rfl⟩ | ⟨-, -, -, rfl⟩ | ⟨-, -, raw, -, rfl⟩ := txPhy_cases h
  · exact s.raise_keepsReceiver _ _
  · exact s.raise_keepsReceiver _ _
  · exact putOnLine_keepsReceiver raw s

theorem txMac_keepsReceiver {P : Primitives} {dst : Byte} {payload : List Byte} {size : Nat} {s t : State}
    (h : txMac P dst payload size s = .next t) : KeepsReceiver s t := by
  obtain ⟨-, rfl⟩ | ⟨-, -, u, hu, rfl | rfl⟩ := txMac_cases h
  · exact s.raise_keepsReceiver _ _
  · exact (txPhy_keepsReceiver hu).trans (u.finish_keepsReceiver _ _)
  · exact (txPhy_keepsReceiver hu).trans (u.raise_keepsReceiver _ _)

theorem pktTx_keepsReceiver {P : Primitives} {dst : Byte} {data : List Byte} {size : Nat} {s t : State}
    (h : pktTx P dst data size s = .next t) : KeepsReceiver s t := by
  obtain ⟨-, rfl⟩ | ⟨-, -, u, hu, rfl | rfl⟩ := pktTx_cases h
  · exact s.raise_keepsReceiver _ _
  · exact (txMac_keepsReceiver hu).trans (u.finish_keepsReceiver _ _)
  · exact (txMac_keepsReceiver hu).trans (u.raise_keepsReceiver _ _)

/-! ### What an instruction can do -/

/-- A PHY event that answers a next state is the PHY step of that class (30 R84, 40 R100). -/
theorem exec_phyEvent {e : PhyEvent} {s t : State} (h : exec e.toInstr s = .next t) :
    phyClass s = e ∧ phyStep Config.prims s = .next t := by
  have hclass : phyClass s = e := by
    cases e <;> exact of_decide_eq_true (whenClass_eq_next h).1
  refine ⟨hclass, ?_⟩
  unfold phyStep
  rw [hclass]
  cases e <;> exact h

/-- An instruction that answers a next state is a receive operation, or a PHY event performing the PHY step of its own
class, or leaves the receiver alone. -/
theorem exec_cases {i : Instr} {s t : State} (h : exec i s = .next t) :
    (∃ op blk, i = RxOp.instr blk op ∧ receive Config.prims blk op s = .next t) ∨
    (∃ e : PhyEvent, i = e.toInstr ∧ phyClass s = e ∧ phyStep Config.prims s = .next t) ∨
    KeepsReceiver s t := by
  cases i with
  | rxPhy blk => exact .inl ⟨.phy, blk, rfl, h⟩
  | rxMac blk => exact .inl ⟨.mac, blk, rfl, h⟩
  | pktRx blk => exact .inl ⟨.pkt none, blk, rfl, h⟩
  | pktRxFrom blk e => exact .inl ⟨.pkt (some e), blk, rfl, h⟩
  | txPhy payload size => exact .inr (.inr (txPhy_keepsReceiver h))
  | txMac dst payload size => exact .inr (.inr (txMac_keepsReceiver h))
  | pktTx dst data size => exact .inr (.inr (pktTx_keepsReceiver h))
  | phyEmpty => exact .inr (.inl ⟨.empty, rfl, exec_phyEvent h⟩)
  | phyStart => exact .inr (.inl ⟨.start, rfl, exec_phyEvent h⟩)
  | phyResync => exact .inr (.inl ⟨.resync, rfl, exec_phyEvent h⟩)
  | phyEnd => exact .inr (.inl ⟨.frameEnd, rfl, exec_phyEvent h⟩)
  | phyAppend => exact .inr (.inl ⟨.append, rfl, exec_phyEvent h⟩)
  | phyOverflow => exact .inr (.inl ⟨.overflow, rfl, exec_phyEvent h⟩)
  | phyNoise => exact .inr (.inl ⟨.noise, rfl, exec_phyEvent h⟩)
  | endOk raw => exact .inr (.inr (endOk_keepsReceiver h))
  | macAcceptUni f => exact .inr (.inr (whenClass_keepsReceiver (acceptFrame_keepsReceiver false f s) h))
  | macAcceptBcast f => exact .inr (.inr (whenClass_keepsReceiver (acceptFrame_keepsReceiver true f s) h))
  | endDecodeErr | endOversize | macRunt | appRunt | appCkerr =>
    exact .inr (.inr (whenClass_keepsReceiver (s.raise_keepsReceiver _ _) h))
  | endEmpty | macDrop | appNone | appSrcDrop | appOk =>
    exact .inr (.inr (whenClass_keepsReceiver (s.finish_keepsReceiver _ _) h))

/-! ### The store -/

/-- The store of 20 R51 took place between `s` and `t`. -/
def StoresAtAcc (s t : State) : Prop :=
  phyClass s = .append ∧
  ∃ b, s.rxQueue.head? = some b ∧ b ≠ s.cfg.delim ∧ s.sync = true ∧ s.acc < s.cfg.rxCap ∧ t.acc = s.acc + 1 ∧
    t.rxbuf = Memory.write s.rxbuf s.acc b

/-- The store is a fact about `ACC` and RXBUF of the later state alone. -/
theorem StoresAtAcc.congr {s t u : State} (h : StoresAtAcc s u) (hacc : t.acc = u.acc) (hbuf : t.rxbuf = u.rxbuf) :
    StoresAtAcc s t := by
  rw [StoresAtAcc, hacc, hbuf]
  exact h

/-- The APPEND class needs a byte at hand that is not the delimiter, and synchronisation (30 R80). -/
theorem phyClass_append {s : State} (h : phyClass s = .append) :
    ∃ b q, s.rxQueue = b :: q ∧ b ≠ s.cfg.delim ∧ s.sync = true := by
  cases hq : s.rxQueue with
  | nil => simp [phyClass_nil hq] at h
  | cons b q =>
    rw [phyClass_cons hq] at h
    split_ifs at h
    exact ⟨b, q, rfl, ‹_›, eq_true_of_ne_false ‹_›⟩

/-- PHY.APPEND stores, and its store is inside RXBUF (40 R105). -/
theorem execPhyAppend_stores {s t : State} (h : execPhyAppend s = .next t) : StoresAtAcc s t := by
  obtain ⟨happlies, h⟩ := whenClass_eq_next h
  have hclass := of_decide_eq_true happlies
  obtain ⟨b, q, hq, hdelim, hsync⟩ := phyClass_append hclass
  simp only [State.read, hq, List.head?_cons] at h
  split at h
  · next u hu =>
    obtain ⟨hlt, rfl⟩ := State.memWrite_some hu
    cases h
    exact ⟨hclass, b, by simp [hq], hdelim, hsync, hlt, rfl, rfl⟩
  · cases h

/-- The table of 40 R108 writes RXBUF in its APPEND row only. -/
theorem phyAfter_rxbuf (P : Primitives) {s : State} (h : phyClass s ≠ .append) : (phyAfter P s).rxbuf = s.rxbuf := by
  unfold phyAfter
  cases hq : s.rxQueue with
  | nil => rfl
  | cons b q =>
    rw [phyClass_cons hq] at h
    dsimp only
    split_ifs at h ⊢
    exacts [rfl, rfl, rfl, rfl, rfl, absurd rfl h]

/-- A PHY step stores as R51 says, or leaves RXBUF as it was. -/
theorem phyStep_stores {P : Primitives} {s t : State} (h : phyStep P s = .next t) :
    t.rxbuf = s.rxbuf ∨ StoresAtAcc s t := by
  by_cases hclass : phyClass s = .append
  · rw [phyStep, hclass] at h
    exact .inr (execPhyAppend_stores h)
  · exact .inl (phyStep_next h ▸ phyAfter_rxbuf P hclass)

/-- What follows the PHY step of a receive operation touches neither `ACC` nor RXBUF. -/
theorem afterPhy_frame {P : Primitives} {blocking : Bool} {op : RxOp} {s t : State}
    (h : afterPhy P blocking op s = .next t) : t.acc = s.acc ∧ t.rxbuf = s.rxbuf := by
  unfold afterPhy at h
  split at h
  · cases h
    exact ⟨rfl, rfl⟩
  · rw [upperStages_eq] at h
    cases h
    have hkeeps := upperAfter_keepsReceiver P op { s with pending := none }
    exact ⟨hkeeps.acc, hkeeps.rxbuf⟩

/-- A receive operation stores as its PHY step does. -/
theorem receive_stores {P : Primitives} {blk : Blk} {op : RxOp} {s t : State} (h : receive P blk op s = .next t) :
    t.rxbuf = s.rxbuf ∨ StoresAtAcc s t := by
  obtain ⟨u, hstep, hafter⟩ := andThen_eq_next h
  obtain ⟨hacc, hbuf⟩ := afterPhy_frame hafter
  exact (phyStep_stores hstep).imp hbuf.trans fun hstore => hstore.congr hacc hbuf

/-- Settles O51: of the three kinds of instruction in `exec_cases`, the receive operations and the PHY events store by
their PHY step, an event only in the class APPEND. -/
theorem rxbufStoresOnlyAtAcc : Obligations.RxbufStoresOnlyAtAcc := by
  intro i s t h
  obtain ⟨op, blk, rfl, hrx⟩ | ⟨e, rfl, hclass, hstep⟩ | hkeeps := exec_cases h
  · exact (receive_stores hrx).imp_right fun hstore => ⟨.inr ⟨op, blk, rfl⟩, hstore⟩
  · refine (phyStep_stores hstep).imp_right fun hstore => ⟨.inl ?_, hstore⟩
    rw [← hclass, hstore.1, PhyEvent.toInstr]
  · exact .inl hkeeps.rxbuf

end Sys2Proof.Machine
end

section
/-! The classes of the PHY step and of the three frame stages are the tables of 30 R80 to R83: each class function is one
chain of tests (Laws/Classes), and along each of its branches the row's condition holds and every other row's fails. -/
namespace Sys2Proof.Machine

/-- Settles O8: without a byte the class is EMPTY; with one, the tests on the byte, SYNC and `ACC` are the rows, and
`ACC <= RX_CAP` makes "not full" the APPEND row's `ACC < RX_CAP`. -/
theorem phyEventClassification : Obligations.PhyEventClassification := by
  intro s hcap
  cases hq : s.rxQueue with
  | nil => simp [phyClass_nil hq]
  | cons b q =>
    have hroom : s.acc < s.cfg.rxCap ↔ s.acc ≠ s.cfg.rxCap := hcap.lt_iff_ne
    rw [phyClass_cons hq, hroom, Nat.pos_iff_ne_zero]
    split_ifs with hdelim hsync hacc hsync hfull
    · simp [hdelim, hsync]
    · simp [hdelim, hsync, hacc]
    · simp [hdelim, hsync, hacc]
    · simp [hdelim, hsync]
    · simp [hdelim, hsync, hfull]
    · simp [hdelim, hsync, hfull]

/-- 30 R81: a codec's own report and an output above PHY_DEC_MAX are one class. -/
theorem endClass_table (P : Primitives) (c : SessionConfig) (raw : List Byte) :
    (endClass P c raw = .decodeErr ↔ P.decode c.mode raw = .fail) ∧
    (endClass P c raw = .oversize ↔
      P.decode c.mode raw = .tooLong ∨ ∃ f, P.decode c.mode raw = .ok f ∧ c.phyDecMax < f.length) ∧
    (endClass P c raw = .ok ↔ ∃ f, P.decode c.mode raw = .ok f ∧ 1 ≤ f.length ∧ f.length ≤ c.phyDecMax) ∧
    (endClass P c raw = .empty ↔ P.decode c.mode raw = .ok []) := by
  rw [endClass_eq]
  cases P.decode c.mode raw with
  | fail => simp
  | tooLong => simp
  | ok f =>
    dsimp only
    split_ifs with hlong hempty
    · have hne : f ≠ [] := List.ne_nil_of_length_pos (Nat.zero_lt_of_lt hlong)
      simp [hlong, hne]
    · simp [List.length_eq_zero_iff.mp hempty]
    · have hne : f ≠ [] := mt List.length_eq_zero_iff.mpr hempty
      simp [hne, Nat.not_lt.mp hlong, Nat.one_le_iff_ne_zero]

/-- `dst` is the frame's first byte (30 R75). -/
theorem frameDst_eq_iff {f : List Byte} (h : 2 ≤ f.length) (a : Byte) : frameDst f = a ↔ f[0]? = some a := by
  simp [frameDst, List.getElem?_eq_getElem (Nat.zero_lt_of_lt h)]

/-- 30 R82: as the station's address is not BCAST, no frame is both for it and for all. -/
theorem macClass_table (c : SessionConfig) (f : List Byte) (hown : c.localAddr ≠ bcastAddr) :
    (macClass c f = .runt ↔ f.length < 2) ∧
    (macClass c f = .drop ↔ 2 ≤ f.length ∧ f[0]? ≠ some c.localAddr ∧ f[0]? ≠ some bcastAddr) ∧
    (macClass c f = .acceptUni ↔ 2 ≤ f.length ∧ f[0]? = some c.localAddr) ∧
    (macClass c f = .acceptBcast ↔ 2 ≤ f.length ∧ f[0]? = some bcastAddr) := by
  rw [macClass_eq]
  split_ifs with hrunt hlocal hbcast
  · simp [hrunt, Nat.not_le.mpr hrunt]
  all_goals
    have hlen : 2 ≤ f.length := Nat.not_lt.mp hrunt
    simp only [ne_eq, ← frameDst_eq_iff hlen]
  · simp [hrunt, hlen, hlocal, hown]
  · simp [hrunt, hlen, hbcast, hown.symm]
  · simp [hrunt, hlen, hlocal, hbcast]

/-- 30 R83: once the checksum agrees, the source filter alone decides between SRC_DROP and OK. -/
theorem appClass_table (P : Primitives) (src : Byte) (filter : Option Byte) (p : List Byte) :
    (appClass P src filter p = .none ↔ p.length = 0) ∧
    (appClass P src filter p = .runt ↔ p.length = 1) ∧
    (appClass P src filter p = .ckerr ↔ 2 ≤ p.length ∧ rxChecksum p ≠ calcChecksum P p) ∧
    (appClass P src filter p = .srcDrop ↔
      2 ≤ p.length ∧ rxChecksum p = calcChecksum P p ∧ ∃ e, filter = some e ∧ src ≠ e) ∧
    (appClass P src filter p = .ok ↔
      2 ≤ p.length ∧ rxChecksum p = calcChecksum P p ∧ (filter = none ∨ filter = some src)) := by
  have hfilter : (∃ e, filter = some e ∧ src ≠ e) ↔ ¬(filter = none ∨ filter = some src) := by
    cases filter <;> simp [eq_comm]
  rw [appClass_eq, ← calcChecksum, hfilter]
  split_ifs with hnone hrunt hck hsrc
  · simp [hnone]
  · simp [hrunt]
  all_goals have hlen : 2 ≤ p.length := by omega
  · simp [hnone, hrunt, hlen, hck]
  · simp [hnone, hrunt, hlen, not_not.mp hck, hsrc]
  · simp [hnone, hrunt, hlen, not_not.mp hck, hsrc]

/-- Settles O9: one table lemma for each stage, BCAST written out as 0xFF. -/
theorem stageClassification : Obligations.StageClassification := fun P c bytes src filter hown =>
  ⟨endClass_table P c bytes, macClass_table c bytes hown, appClass_table P src filter bytes⟩

end Sys2Proof.Machine
end

section
/-! The PHY receive state machine, row by row (40 R101 to R107, R109, R110, R112). Each row is performed where its class
applies: the tables of 30 R80 and R81 give the class, the row's meaning then gives the whole next state. -/
namespace Sys2Proof.Machine

/-! ### What a row reads -/

/-- `read()` with a byte available removes that byte and nothing else (44 R192). -/
theorem State.taken_of_cons {s : State} {b : Byte} {q : List Byte} (h : s.rxQueue = b :: q) :
    s.taken = { s with rxQueue := q } := by
  rw [State.taken, State.read, h, List.tail_cons]

/-- `n` bytes that agree with the first `n` cells one by one are what the memory holds there. -/
theorem Memory.prefixFrom_zero_eq {m : Memory} {n : Nat} {raw : List Byte} (hlen : raw.length = n)
    (hcells : ∀ i, i < n → raw[i]? = some (Memory.read m i)) : Memory.prefixFrom m 0 n = raw := by
  refine List.ext_getElem (by rw [Memory.prefixFrom_length, hlen]) fun i _ hi => ?_
  have hcell := hcells i (hlen ▸ hi)
  rw [List.getElem?_eq_getElem hi, Option.some.injEq] at hcell
  simp [Memory.prefixFrom, hcell]

/-- `MemRead` inside RXBUF answers (20 R52). -/
theorem State.memRead_of_le {s : State} {a n : Nat} (h : a + n ≤ s.cfg.rxCap) :
    s.memRead a n = some (Memory.prefixFrom s.rxbuf a n) := if_pos h

/-- `MemWrite` inside RXBUF answers (20 R51). -/
theorem State.memWrite_of_lt {s : State} {a : Nat} {v : Byte} (h : a < s.cfg.rxCap) :
    s.memWrite a v = some { s with rxbuf := Memory.write s.rxbuf a v } := if_pos h

/-! ### The rows where their class applies -/

/-- PHY.END hands the cells below `ACC` to the frame end, in the state `{false, 0}` (40 R104). -/
theorem phyEnd_of_class {P : Primitives} {s : State} (hclass : phyClass s = .frameEnd) (hcap : s.acc ≤ s.cfg.rxCap) :
    phyEnd P s = performEnd P (Memory.prefixFrom s.rxbuf 0 s.acc) s.taken.unsync := by
  rw [phyEnd, whenClass_pos (decide_eq_true hclass), State.memRead_of_le (by rwa [Nat.zero_add])]

/-- PHY.APPEND stores the byte taken at `ACC` (40 R105). -/
theorem execPhyAppend_of_class {s : State} {b : Byte} {q : List Byte} (hq : s.rxQueue = b :: q)
    (hclass : phyClass s = .append) (hroom : s.acc < s.cfg.rxCap) :
    execPhyAppend s = .next { s with
      rxQueue := q, rxbuf := Memory.write s.rxbuf s.acc b, acc := s.acc + 1, errPhy := .noError,
      result := some .none } := by
  rw [execPhyAppend, whenClass_pos (decide_eq_true hclass), State.read, hq]
  simp only [List.head?_cons, List.tail_cons, State.memWrite_of_lt (s := { s with rxQueue := q }) hroom]
  rfl

/-- END.OK gives the frame decoded (40 R109). -/
theorem endOk_of_class {P : Primitives} {s : State} {raw f : List Byte} (hdecode : P.decode s.cfg.mode raw = .ok f)
    (hclass : endClass P s.cfg raw = .ok) : endOk P raw s = .next (s.finish .phy (.frame f)) := by
  rw [endOk, whenClass_pos (decide_eq_true hclass), hdecode]

/-- END.OVERSIZE raises (40 R110). -/
theorem endOversize_of_class {P : Primitives} {s : State} {raw : List Byte} (hclass : endClass P s.cfg raw = .oversize) :
    endOversize P raw s = .next (s.raise .phy .oversize) :=
  whenClass_pos (decide_eq_true hclass)

/-! ### The obligations. A namespace of their own: the model's rows `phyEnd`, `endOk`, `endOversize`, `endEmpty` have the
names that the theorems take. -/
namespace PhyReceive

/-- Settles O16: without a byte the class is EMPTY. -/
theorem phyEmpty : Obligations.PhyEmpty := by
  intro s hq
  exact whenClass_pos (decide_eq_true (phyClass_nil hq))

/-- Settles O17: the delimiter without SYNC is the class START. -/
theorem phyStart : Obligations.PhyStart := by
  intro s q hq hsync
  have hclass : phyClass s = .start := by rw [phyClass_cons hq, if_pos rfl, if_pos hsync]
  calc exec .phyStart s
    _ = .next (s.taken.open.finish .phy .none) := whenClass_pos (decide_eq_true hclass)
    _ = _ := by rw [State.taken_of_cons hq]; rfl

/-- Settles O18: the delimiter with SYNC and nothing accumulated is the class RESYNC. -/
theorem phyResync : Obligations.PhyResync := by
  intro s q hq hsync hacc
  have hclass : phyClass s = .resync := by simp [phyClass_cons hq, hsync, hacc]
  calc exec .phyResync s
    _ = .next (s.taken.unsync.finish .phy .none) := whenClass_pos (decide_eq_true hclass)
    _ = _ := by rw [State.taken_of_cons hq]; rfl

/-- Settles O19: the delimiter with bytes accumulated is the class END, whose outcome is that of the frame end's table. -/
theorem phyEnd : Obligations.PhyEnd := by
  intro s q raw hq hsync hpos hcap hlen hcells
  have hclass : phyClass s = .frameEnd := by simp [phyClass_cons hq, hsync, hpos.ne']
  calc exec .phyEnd s
    _ = performEnd Config.prims (Memory.prefixFrom s.rxbuf 0 s.acc) s.taken.unsync := phyEnd_of_class hclass hcap
    _ = performEnd Config.prims raw { s with rxQueue := q, sync := false, acc := 0 } := by
      rw [Memory.prefixFrom_zero_eq hlen hcells, State.taken_of_cons hq]
      rfl
    _ = _ := performEnd_eq Config.prims raw _

/-- Settles O20: the class is APPEND, and the memory is RXBUF with the byte stored, whose reads are those of 20 R51. -/
theorem phyAppend : Obligations.PhyAppend := by
  intro s b q hq hdelim hsync hroom hwf
  have hclass : phyClass s = .append := by simp [phyClass_cons hq, hdelim, hsync, hroom.ne]
  exact ⟨Memory.write s.rxbuf s.acc b, execPhyAppend_of_class hq hclass hroom, Memory.write_wf s.acc b hwf,
    Memory.read_write_same s.acc b hwf, fun _ hother => Memory.read_write_other s.rxbuf b hother⟩

/-- Settles O21: another byte with SYNC and RXBUF full is the class OVERFLOW. -/
theorem phyOverflow : Obligations.PhyOverflow := by
  intro s b q hq hdelim hsync hfull
  have hclass : phyClass s = .overflow := by simp [phyClass_cons hq, hdelim, hsync, hfull]
  calc exec .phyOverflow s
    _ = .next (s.taken.unsync.raise .phy .oversize) := whenClass_pos (decide_eq_true hclass)
    _ = _ := by rw [State.taken_of_cons hq]; rfl

/-- Settles O22: another byte without SYNC is the class NOISE. -/
theorem phyNoise : Obligations.PhyNoise := by
  intro s b q hq hdelim hsync
  have hclass : phyClass s = .noise := by rw [phyClass_cons hq, if_neg hdelim, if_pos hsync]
  calc exec .phyNoise s
    _ = .next ((s.taken.advise .phy .noiseData).respond .none) := whenClass_pos (decide_eq_true hclass)
    _ = _ := by rw [State.taken_of_cons hq]; rfl

/-- Settles O23: an output of 1 to PHY_DEC_MAX bytes is the class OK. -/
theorem endOk : Obligations.EndOk := by
  intro s raw f hdecode hpos hmax
  obtain ⟨-, -, hok, -⟩ := endClass_table Config.prims s.cfg raw
  exact endOk_of_class hdecode (hok.mpr ⟨f, hdecode, hpos, hmax⟩)

/-- Settles O24: the PHY's comparison and the codec's own report are the two ways into the class OVERSIZE. -/
theorem endOversize : Obligations.EndOversize := by
  refine ⟨fun s raw f hdecode hlong => ?_, fun P s raw hreport => ?_, fun _ _ => rfl⟩
  · obtain ⟨-, hoversize, -, -⟩ := endClass_table Config.prims s.cfg raw
    exact endOversize_of_class (hoversize.mpr (.inr ⟨f, hdecode, hlong⟩))
  · obtain ⟨-, hoversize, -, -⟩ := endClass_table P s.cfg raw
    exact endOversize_of_class (hoversize.mpr (.inl hreport))

/-- Settles O26: an empty output is the class EMPTY. -/
theorem endEmpty : Obligations.EndEmpty := by
  intro s raw hdecode
  obtain ⟨-, -, -, hempty⟩ := endClass_table Config.prims s.cfg raw
  exact whenClass_pos (decide_eq_true (hempty.mpr hdecode))

end PhyReceive
end Sys2Proof.Machine
end

section
/-! The MAC receive stage, outcome by outcome (41 R131 to R134, R138), and non-blocking RX_MAC (41 R139). Each outcome
is performed where its class applies: the destination byte gives the class by 30 R82, the row the whole next state. -/
namespace Sys2Proof.Machine

/-! ### The outcomes -/

/-- 30 R82 on a frame of two bytes or more: the destination decides, the station's own address before BCAST. -/
theorem macClass_of_fields (c : SessionConfig) (dst src : Byte) (p : List Byte) :
    macClass c (macFrame dst src p) =
      if dst = c.localAddr then .acceptUni else if dst = bcastAddr then .acceptBcast else .drop := by
  have hlen : ¬(macFrame dst src p).length < 2 := by simp [macFrame]
  rw [macClass_eq, if_neg hlen]
  rfl

/-- An accepted frame's fields are its source and its payload (30 R75). -/
theorem acceptFrame_of_fields (bcast : Bool) (dst src : Byte) (p : List Byte) (s : State) :
    acceptFrame bcast (macFrame dst src p) s =
      { s with errMac := advisory s.cfg src, result := some (.accept src bcast p) } := rfl

/-- Settles O27: one byte is the class RUNT. -/
theorem macRunt : Obligations.MacRunt := by
  intro s b
  have hclass : macClass s.cfg [b] = .runt := by rw [macClass_eq, if_pos (by simp)]
  exact whenClass_pos (decide_eq_true hclass)

/-- Settles O28: a destination that is neither the station's address nor BCAST is the class DROP, whatever the
source. -/
theorem macDrop : Obligations.MacDrop := by
  intro s dst src p hlocal (hbcast : dst ≠ bcastAddr)
  have hclass : macClass s.cfg (macFrame dst src p) = .drop := by
    rw [macClass_of_fields, if_neg hlocal, if_neg hbcast]
  exact whenClass_pos (decide_eq_true hclass)

/-- Settles O29: the station's own address is the class ACCEPT_UNI. -/
theorem macAcceptUni : Obligations.MacAcceptUni := by
  intro s src p _
  have hclass : macClass s.cfg (macFrame s.cfg.localAddr src p) = .acceptUni := by
    rw [macClass_of_fields, if_pos rfl]
  calc exec (.macAcceptUni (macFrame s.cfg.localAddr src p)) s
    _ = .next (acceptFrame false (macFrame s.cfg.localAddr src p) s) := whenClass_pos (decide_eq_true hclass)
    _ = _ := by rw [acceptFrame_of_fields]; rfl

/-- Settles O30: BCAST is the class ACCEPT_BCAST, as it is no station's own address. -/
theorem macAcceptBcast : Obligations.MacAcceptBcast := by
  intro s src p (hown : s.cfg.localAddr ≠ bcastAddr)
  have hclass : macClass s.cfg (macFrame bcastAddr src p) = .acceptBcast := by
    rw [macClass_of_fields, if_neg hown.symm, if_pos rfl]
  calc exec (.macAcceptBcast (macFrame bcastAddr src p)) s
    _ = .next (acceptFrame true (macFrame bcastAddr src p) s) := whenClass_pos (decide_eq_true hclass)
    _ = _ := by rw [acceptFrame_of_fields]; rfl

/-! ### The operation -/

/-- A non-blocking receive operation is one PHY step and its upper stages, whatever the PHY result (40 R113, 41 R139,
42 R156, R159). -/
theorem exec_nonblock (op : RxOp) {s : State} (hcap : s.acc ≤ s.cfg.rxCap) :
    exec (op.instr .nonblock) s =
      .next (upperAfter Config.prims op { phyAfter Config.prims s with pending := none }) := by
  rw [exec_receive, receive_eq Config.prims .nonblock op hcap, if_neg (by simp [blocks])]

/-- Settles O36: the upper stages of RX_MAC are the MAC stage alone. -/
theorem rxMacNonblocking : Obligations.RxMacNonblocking := fun _ hcap => exec_nonblock .mac hcap

end Sys2Proof.Machine
end

section
/-! The APP receive stage, outcome by outcome (42 R151 to R155), and non-blocking PKT_RX and PKT_RX_FROM (42 R156 to R159).
A payload of two bytes or more is read as its data and the two bytes of its trailer: by 30 R83 the class is then the
comparison of the trailer with the data's checksum, and after it the source filter. -/
namespace Sys2Proof.Machine

/-! ### A payload as data and trailer -/

/-- High byte first, as a number (20 R54). -/
theorem bigEndian_toNat (hi lo : Byte) : (bigEndian hi lo).toNat = hi.toNat * 256 + lo.toNat := by
  rw [bigEndian, BitVec.toNat_append, ← Nat.shiftLeft_add_eq_or_of_lt lo.isLt, Nat.shiftLeft_eq]

/-- The data of a payload is what stands before its last two bytes (30 R75). -/
theorem appData_append_pair (d : List Byte) (hi lo : Byte) : appData (d ++ [hi, lo]) = d :=
  List.take_left' (by simp)

/-- The received checksum is the payload's last two bytes (30 R75). -/
theorem rxChecksum_append_pair (d : List Byte) (hi lo : Byte) : rxChecksum (d ++ [hi, lo]) = bigEndian hi lo := by
  simp [rxChecksum]

/-- 30 R83 on data and trailer: the checksum of the data alone decides first, the source filter second. -/
theorem appClass_append_pair (P : Primitives) (src : Byte) (filter : Option Byte) (d : List Byte) (hi lo : Byte) :
    appClass P src filter (d ++ [hi, lo]) =
      if hi.toNat * 256 + lo.toNat ≠ (P.checksum seed d).toNat then .ckerr
      else if filter = none ∨ filter = some src then .ok else .srcDrop := by
  have hnone : (d ++ [hi, lo]).length ≠ 0 := by simp
  have hrunt : (d ++ [hi, lo]).length ≠ 1 := by simp
  rw [appClass_eq, if_neg hnone, if_neg hrunt, appData_append_pair, rxChecksum_append_pair]
  simp only [BitVec.toNat_ne, bigEndian_toNat]

/-! ### The outcomes. A namespace of their own: the model's rows `appCkerr`, `appOk`, `appSrcDrop` have the names that the
theorems take. -/
namespace AppReceive

/-- Settles O31: the length alone gives the classes NONE and RUNT. -/
theorem appShort : Obligations.AppShort := by
  refine ⟨fun s => ?_, fun s b => ?_⟩
  · obtain ⟨hnone, -, -, -, -⟩ := appClass_table Config.prims 0 none []
    exact whenClass_pos (decide_eq_true (hnone.mpr rfl))
  · obtain ⟨-, hrunt, -, -, -⟩ := appClass_table Config.prims 0 none [b]
    exact whenClass_pos (decide_eq_true (hrunt.mpr rfl))

/-- Settles O32: a trailer that differs is the class CKERR, before the source is asked. -/
theorem appCkerr : Obligations.AppCkerr := by
  intro s d hi lo (hdiffer : _ ≠ (Config.prims.checksum seed d).toNat)
  have hclass : appClass Config.prims 0 none (d ++ [hi, lo]) = .ckerr := by
    rw [appClass_append_pair, if_pos hdiffer]
  exact whenClass_pos (decide_eq_true hclass)

/-- Settles O33: a trailer that agrees and a source that passes are the class OK; the packet holds the data without the
trailer. -/
theorem appOk : Obligations.AppOk := by
  intro s d hi lo src bcast filter (hagree : _ = (Config.prims.checksum seed d).toNat) hpasses
  have hclass : appClass Config.prims src filter (d ++ [hi, lo]) = .ok := by
    rw [appClass_append_pair, if_neg (not_not.mpr hagree), if_pos hpasses]
  calc exec (.appOk src bcast (d ++ [hi, lo]) filter) s
    _ = .next (s.finish .app (.packet src bcast (appData (d ++ [hi, lo])))) := whenClass_pos (decide_eq_true hclass)
    _ = _ := by rw [appData_append_pair]; rfl

/-- Settles O34: a trailer that agrees and a source that is not the expected one are the class SRC_DROP. -/
theorem appSrcDrop : Obligations.AppSrcDrop := by
  intro s d hi lo src e (hagree : _ = (Config.prims.checksum seed d).toNat) hother
  have hclass : appClass Config.prims src (some e) (d ++ [hi, lo]) = .srcDrop := by
    rw [appClass_append_pair, if_neg (not_not.mpr hagree), if_neg (by simpa using hother.symm)]
  exact whenClass_pos (decide_eq_true hclass)

end AppReceive

/-! ### The operations -/

/-- Settles O37: the upper stages of PKT_RX and PKT_RX_FROM are the MAC stage and then the APP stage, which differ in the
source filter alone. -/
theorem packetReceiveNonblocking : Obligations.PacketReceiveNonblocking := fun _ e hcap =>
  ⟨exec_nonblock (.pkt none) hcap, exec_nonblock (.pkt (some e)) hcap⟩

end Sys2Proof.Machine
end

section
/-! The size checks of the three transmit operations, and TX_PHY past its check (43 R170 to R173): the encoding, then the
bracketed sequence, whose outcomes on the line are `putOnLine_full` and `putOnLine_short`. -/
namespace Sys2Proof.Machine

/-- Settles O40: each operation's size check is its first test, and the state it answers is `raise` at the operation's
own layer. -/
theorem transmitOversize : Obligations.TransmitOversize := by
  refine fun s dst bytes size => ⟨fun hphy => ?_, fun hmac => ?_, fun happ => ?_⟩
  · calc exec (.txPhy bytes size) s
      _ = .next (s.raise .phy .oversize) := if_pos hphy
  · calc exec (.txMac dst bytes size) s
      _ = .next (s.raise .mac .oversize) := if_pos hmac
  · calc exec (.pktTx dst bytes size) s
      _ = .next (s.raise .app .oversize) := if_pos happ

/-- TX_PHY of a size that passes the check and of bytes that have an encoding puts the encoding on the line (43 R171). -/
theorem txPhy_of_encode {P : Primitives} {s : State} {payload raw : List Byte} {size : Nat} (hcap : size ≤ s.cfg.rxCap)
    (hlen : size ≤ payload.length) (henc : P.encode s.cfg.mode (payload.take size) = some raw) :
    txPhy P payload size s = .next (putOnLine raw s) := by
  rw [txPhy, if_neg hcap.not_gt, if_neg hlen.not_gt, henc]

/-- Settles O41: the codec's contracts give the encoding; three writes taken whole give the line. -/
theorem txPhySends : Obligations.TxPhySends := by
  refine ⟨fun s payload size hcap _ => ?_, fun s payload raw size hcap hlen henc hwhole => ?_⟩
  · obtain ⟨raw, henc⟩ : ∃ raw, Config.prims.encode s.cfg.mode (payload.take size) = some raw :=
      encode_total Config.prims_lawful ((List.length_take_le size payload).trans hcap)
    exact ⟨raw, henc, encode_clean Config.prims_lawful henc⟩
  · calc exec (.txPhy payload size) s
      _ = .next (putOnLine raw s) := txPhy_of_encode hcap hlen henc
      _ = _ := by rw [putOnLine_full hwhole]

/-- Settles O45: the replies before the short one serve the pieces before it, so the sequence stops at piece `k`. -/
theorem txPhyShortWrite : Obligations.TxPhyShortWrite := by
  intro s payload size raw piece k pre post r hcap hlen henc hpiece hreplies hk hwhole hshort
  calc exec (.txPhy payload size) s
    _ = .next (putOnLine raw s) := txPhy_of_encode hcap hlen henc
    _ = _ := by rw [putOnLine_short hk hpiece hwhole hreplies hshort]

end Sys2Proof.Machine
end

section
/-! The decoder: words of commands and of condition vectors, and the encoder's words read back (30 R80 to R87). -/
namespace Sys2Proof.Machine

/-! ### The fields of a command word (30 R87) -/

theorem commandWord_reserved (op : BitVec 3) (blk : Blk) : (commandWord op blk).extractLsb' 5 3 = 0 := by
  revert op
  cases blk <;> decide

theorem commandWord_blk (op : BitVec 3) (blk : Blk) : (commandWord op blk).extractLsb' 3 2 = encodeBlk blk := by
  revert op
  cases blk <;> decide

theorem commandWord_op (op : BitVec 3) (blk : Blk) : (commandWord op blk).extractLsb' 0 3 = op := by
  revert op
  cases blk <;> decide

theorem decodeBlk_encodeBlk (blk : Blk) : decodeBlk (encodeBlk blk) = .ok blk := by
  cases blk <;> rfl

/-- The command word of a receive operation decodes to that operation (30 R86, R87). -/
theorem decode_encode_receive (op : RxOp) (blk : Blk) : decode (encode (op.instr blk)) = .ok (op.instr blk) := by
  rcases op with _ | _ | _ | e <;>
    simp [RxOp.instr, encode, decode, decodeCommand, commandWord_reserved, commandWord_blk, commandWord_op,
      decodeBlk_encodeBlk, Except.map]

/-- The operands of an accepted packet give its source, its broadcast flag, its payload and its filter back. -/
theorem decode_encode_appOk (src : Byte) (bcast : Bool) (p : List Byte) (filter : Option Byte) :
    decode (encode (.appOk src bcast p filter)) = .ok (.appOk src bcast p filter) := by
  cases filter <;>
    simp [encode, decode, decodeVector, decodeAppOutcome, AppOutcome.toInstr, Operands.ofFilter, Operands.filter]

/-- Settles O6: a receive operation's blocking field is read back by `decode_encode_receive`, a source filter by
`decode_encode_appOk`; every other word is a constant, read under its row's format. -/
theorem decodeEncode : Obligations.DecodeEncode := by
  intro i _
  cases i with
  | rxPhy blk => exact decode_encode_receive .phy blk
  | rxMac blk => exact decode_encode_receive .mac blk
  | pktRx blk => exact decode_encode_receive (.pkt none) blk
  | pktRxFrom blk e => exact decode_encode_receive (.pkt (some e)) blk
  | txPhy | txMac | pktTx => simp [encode, decode, decodeCommand, decodeTransmit]
  | phyEmpty | phyStart | phyResync | phyEnd | phyAppend | phyOverflow | phyNoise => rfl
  | endDecodeErr | endOversize | endEmpty | endOk =>
    simp [encode, decode, decodeVector, decodeEndOutcome, EndOutcome.toInstr]
  | macRunt | macDrop | macAcceptUni | macAcceptBcast =>
    simp [encode, decode, decodeVector, decodeMacOutcome, MacOutcome.toInstr]
  | appNone | appRunt | appCkerr | appSrcDrop =>
    simp [encode, decode, decodeVector, decodeAppOutcome, AppOutcome.toInstr]
  | appOk src bcast p filter => exact decode_encode_appOk src bcast p filter

/-- Settles O5: nine words, read by the decoder. -/
theorem sampleWordsDecode : Obligations.SampleWordsDecode := by
  unfold Obligations.SampleWordsDecode
  decide

/-- Settles O7: each vector format has at most 32 words. -/
theorem vectorRows : Obligations.VectorRows :=
  ⟨by decide, by decide, by decide, by decide⟩

/-! ### The reserved words -/

/-- The only reserved blocking field is 3 (30 R86). -/
theorem decodeBlk_map_eq_error_iff (v : BitVec 2) (k : Blk → Instr) :
    (∃ why, (decodeBlk v).map k = .error why) ↔ v.toNat = 3 := by
  obtain rfl | rfl | rfl | rfl : v = 0 ∨ v = 1 ∨ v = 2 ∨ v = 3 := by revert v; decide
  all_goals simp [decodeBlk, Except.map]

/-- A transmit operation takes the blocking field 0 alone (30 R87). -/
theorem decodeTransmit_eq_error_iff (v : BitVec 2) (i : Instr) :
    (∃ why, decodeTransmit v i = .error why) ↔ v.toNat ≠ 0 := by
  rw [decodeTransmit, Ne, ← BitVec.toNat_zero (w := 2), BitVec.toNat_inj]
  by_cases h : v = 0#2 <;> simp [h]

/-- The reserved words by their fields `CMD[7:5]`, `op`, `blk`. -/
theorem decodeCommand_eq_error_iff (w : Byte) (o : Operands) :
    (∃ why, decodeCommand w o = .error why) ↔
      (w.toNat / 32 ≠ 0 ∨ w.toNat % 8 = 7 ∨ w.toNat / 8 % 4 = 3 ∨ (4 ≤ w.toNat % 8 ∧ w.toNat / 8 % 4 ≠ 0)) := by
  have hw := w.isLt
  have htop : (w.extractLsb' 5 3).toNat = w.toNat / 32 := by
    rw [BitVec.extractLsb'_toNat, Nat.shiftRight_eq_div_pow]; omega
  have hblk : (w.extractLsb' 3 2).toNat = w.toNat / 8 % 4 := by
    rw [BitVec.extractLsb'_toNat, Nat.shiftRight_eq_div_pow]
  have hop : (w.extractLsb' 0 3).toNat = w.toNat % 8 := by
    rw [BitVec.extractLsb'_toNat, Nat.shiftRight_eq_div_pow, pow_zero, Nat.div_one]
  simp only [decodeCommand, ← BitVec.toNat_inj, ne_eq, htop, hop, BitVec.ofNat_eq_ofNat, BitVec.toNat_ofNat]
  split_ifs with h7 h0 h1 h2 h3 h4 h5 h6
  -- the four receive operations, the three transmit operations, `op = 7` and `CMD[7:5]`
  iterate 4
    · rw [decodeBlk_map_eq_error_iff, hblk]
      omega
  iterate 3
    · rw [decodeTransmit_eq_error_iff, hblk]
      omega
  iterate 2
    · exact iff_of_true ⟨_, rfl⟩ (by omega)

end Sys2Proof.Machine
end

section
/-! One step of the machine: where its instruction comes from, one equation for each source (00 R11, 40 R115, log 11). -/
namespace Sys2Proof.Machine

/-- A blocking operation under way comes first (40 R115). -/
theorem step_of_pending {s : State} {op : RxOp} (h : s.pending = some op) :
    step s = exec (op.instr .block) s.deliver := by
  simp only [step, State.deliver_pending, h, blockingInstr_eq]

/-- Nothing under way and no command: the arrivals alone (log 11). -/
theorem step_of_no_command {s : State} (hidle : s.pending = none) (hport : s.commands = []) :
    step s = .next s.deliver := by
  simp only [step, State.deliver_pending, State.deliver_commands, hidle, hport]

/-- The oldest command is taken off the port and run (30 R87). -/
theorem step_of_command {s : State} {c : Command} {rest : List Command} {i : Instr} (hidle : s.pending = none)
    (hport : s.commands = c :: rest) (hdecode : decodeCommand c.word c.operands = .ok i) :
    step s = exec i { s.deliver with commands := rest } := by
  simp only [step, State.deliver_pending, State.deliver_commands, hidle, hport, hdecode]

/-- A reserved word is refused (30 R87). -/
theorem step_of_reserved {s : State} {c : Command} {rest : List Command} {why : Reject} (hidle : s.pending = none)
    (hport : s.commands = c :: rest) (hdecode : decodeCommand c.word c.operands = .error why) :
    step s = .refused (.reservedCommand why) := by
  simp only [step, State.deliver_pending, State.deliver_commands, hidle, hport, hdecode]

/-- Settles O1: `step_of_command`, the delivery written out. -/
theorem stepRunsDecodedCommand : Obligations.StepRunsDecodedCommand := by
  intro s c rest i hidle hport hdecode
  rw [step_of_command hidle hport hdecode, State.deliver_eq]

/-- Settles O2: `step_of_pending`, the delivery written out. -/
theorem stepContinuesBlockingOperation : Obligations.StepContinuesBlockingOperation := by
  intro s op hpending
  rw [step_of_pending hpending, State.deliver_eq]

/-- Settles O3: `step_of_no_command`, the delivery written out. -/
theorem stepWithoutCommand : Obligations.StepWithoutCommand := by
  intro s hidle hport
  rw [step_of_no_command hidle hport, State.deliver_eq]

/-- Settles O4: the reserved words are those of `decodeCommand_eq_error_iff`, and a step refuses each. -/
theorem reservedCommandsRefused : Obligations.ReservedCommandsRefused :=
  ⟨decodeCommand_eq_error_iff, fun _ _ _ _ hidle hport hdecode => step_of_reserved hidle hport hdecode⟩

end Sys2Proof.Machine
end

section
/-! Session construction's refusals, the invariant at its sessions (70 R261, 10 R33), and what the host reads as
numbers (00 R12, 10 R40, 30 R86, R88). -/
namespace Sys2Proof.Machine

/-- What construction asks of a configuration (10 R21, 70 R261). -/
theorem Setup.config_wf_iff (u : Setup) : u.config.wf = true ↔ u.localAddr ≠ 0xFF ∧ 2 ≤ u.payloadMax := by
  simp only [SessionConfig.wf, Bool.and_eq_true, decide_eq_true_eq]
  exact and_iff_left rfl

/-- Settles O11: construction is a test of `SessionConfig.wf`, which is the two conditions. -/
theorem constructionRefusal : Obligations.ConstructionRefusal := by
  refine fun u env => ⟨fun hbad => ?_, fun haddr hmax => ?_⟩
  · have hwf : ¬u.config.wf = true := by
      rw [Setup.config_wf_iff]
      rintro ⟨haddr, hmax⟩
      exact hbad.elim haddr hmax.not_gt
    rw [construct, if_neg hwf]
  · exact ⟨_, construct_eq_ok_iff.mpr ⟨u.config_wf_iff.mpr ⟨haddr, hmax⟩, rfl⟩⟩

/-- The reset values meet the invariant under every accepted configuration, whatever the transport holds. -/
theorem State.inv_of_reset_values {t : State} (hconfig : t.cfg.wf = true) (hacc : t.acc = 0)
    (hbuf : t.rxbuf = []) (hdir : t.dir = .rx) : t.Inv where
  memory := hbuf ▸ State.reset_memory_wf
  inside := by simp [hbuf]
  accBound := by simp [hacc]
  idle _ := hacc
  clean := by simp [hacc]
  config := hconfig
  direction := hdir

/-- Settles O13: both are states with the reset values. -/
theorem invAtReset : Obligations.InvAtReset := by
  refine ⟨State.inv_of_reset_values (by decide) rfl rfl rfl, fun u env t hok => ?_⟩
  obtain ⟨hwf, rfl⟩ := construct_eq_ok_iff.mp hok
  exact State.inv_of_reset_values hwf rfl rfl rfl

/-- The three advisories (30 R88). -/
theorem ErrorKind.isAdvisory_iff (e : ErrorKind) :
    e.isAdvisory = true ↔ e = .noiseData ∨ e = .readSourceIsBroadcast ∨ e = .readSourceIsSelf := by
  cases e <;> decide

/-- The four kinds that no rule raises (60 R221). -/
theorem ErrorKind.isNeverRaised_iff (e : ErrorKind) :
    e.isNeverRaised = true ↔ e = .timeout ∨ e = .readError ∨ e = .noData ∨ e = .unknown := by
  cases e <;> decide

/-- Settles O15: the views are their definitions, the two classes of kinds the two lemmas above. -/
theorem integerViewAndStatusPort : Obligations.IntegerViewAndStatusPort := by
  refine ⟨⟨rfl, rfl, fun _ => rfl, fun _ => rfl, fun _ _ _ => rfl, fun _ _ _ => rfl⟩,
    fun s => ⟨rfl, rfl, rfl, rfl, rfl, rfl⟩, by decide, ErrorKind.isAdvisory_iff, ErrorKind.isNeverRaised_iff,
    ⟨rfl, rfl⟩, by decide⟩

end Sys2Proof.Machine
end

section
/-! The transition table of the PHY (40 R108) row by row, and what a receive operation makes of the row's state. -/
namespace Sys2Proof.Machine

/-! ### The rows -/

/-- `PhyRow P s t`: a row of the transition table applies in `s` and gives `t`. -/
inductive PhyRow (P : Primitives) (s : State) : State → Prop
  | empty (hq : s.rxQueue = []) : PhyRow P s { s with errPhy := .noError, result := some .none }
  | start {q : List Byte} (hq : s.rxQueue = s.cfg.delim :: q) (hsync : s.sync = false) :
      PhyRow P s { s with rxQueue := q, sync := true, acc := 0, errPhy := .noError, result := some .none }
  | resync {q : List Byte} (hq : s.rxQueue = s.cfg.delim :: q) (hsync : s.sync = true) (hacc : s.acc = 0) :
      PhyRow P s { s with rxQueue := q, sync := false, acc := 0, errPhy := .noError, result := some .none }
  | frameEnd {q raw : List Byte} (hq : s.rxQueue = s.cfg.delim :: q) (hsync : s.sync = true) (hacc : s.acc ≠ 0)
      (hraw : Memory.prefixFrom s.rxbuf 0 s.acc = raw) :
      PhyRow P s { s with
        rxQueue := q, sync := false, acc := 0
        errPhy := (endResult s.cfg (P.decode s.cfg.mode raw)).1
        result := some (endResult s.cfg (P.decode s.cfg.mode raw)).2 }
  | noise {b : Byte} {q : List Byte} (hq : s.rxQueue = b :: q) (hdelim : b ≠ s.cfg.delim) (hsync : s.sync = false) :
      PhyRow P s { s with rxQueue := q, errPhy := .noiseData, result := some .none }
  | overflow {b : Byte} {q : List Byte} (hq : s.rxQueue = b :: q) (hdelim : b ≠ s.cfg.delim) (hsync : s.sync = true)
      (hfull : s.acc = s.cfg.rxCap) :
      PhyRow P s { s with
        rxQueue := q, sync := false, acc := 0, errPhy := .oversize, result := some (.err .oversize) }
  | append {b : Byte} {q : List Byte} (hq : s.rxQueue = b :: q) (hdelim : b ≠ s.cfg.delim) (hsync : s.sync = true)
      (hroom : s.acc ≠ s.cfg.rxCap) :
      PhyRow P s { s with
        rxQueue := q, rxbuf := Memory.write s.rxbuf s.acc b, acc := s.acc + 1, errPhy := .noError,
        result := some .none }

variable {P : Primitives} {s t : State}

/-- In every state the table has a row. -/
theorem phyAfter_row (P : Primitives) (s : State) : PhyRow P s (phyAfter P s) := by
  unfold phyAfter
  split
  next hq => exact .empty hq
  next b q hq =>
    split_ifs with hdelim hsync hacc hsync hfull
    · exact .start (hdelim ▸ hq) hsync
    · exact .resync (hdelim ▸ hq) (eq_true_of_ne_false hsync) hacc
    · exact .frameEnd (hdelim ▸ hq) (eq_true_of_ne_false hsync) hacc rfl
    · exact .noise hq hdelim hsync
    · exact .overflow hq hdelim (eq_true_of_ne_false hsync) hfull
    · exact .append hq hdelim (eq_true_of_ne_false hsync) hfull

/-- In every state the table has at most one row. -/
theorem PhyRow.eq_phyAfter (h : PhyRow P s t) : phyAfter P s = t := by
  unfold phyAfter
  cases h with
  | empty hq => simp [hq]
  | start hq hsync => simp [hq, hsync]
  | resync hq hsync hacc => simp [hq, hsync, hacc]
  | frameEnd hq hsync hacc hraw => simp [hq, hsync, hacc, hraw]
  | noise hq hdelim hsync => simp [hq, hdelim, hsync]
  | overflow hq hdelim hsync hfull => simp [hq, hdelim, hsync, hfull]
  | append hq hdelim hsync hroom => simp [hq, hdelim, hsync, hroom]

theorem phyStep_row (h : phyStep P s = .next t) : PhyRow P s t :=
  phyStep_next h ▸ phyAfter_row P s

/-! ### What every row does -/

/-- A row writes the received bytes, `SYNC`, `ACC`, RXBUF, `ERR.PHY` and the result, and nothing else. -/
theorem PhyRow.frame (h : PhyRow P s t) :
    t = { s with
      rxQueue := t.rxQueue, sync := t.sync, acc := t.acc, rxbuf := t.rxbuf, errPhy := t.errPhy, result := t.result } := by
  cases h <;> rfl

/-- A row takes no byte, or the oldest (40 R100). -/
theorem PhyRow.rxQueue (h : PhyRow P s t) : t.rxQueue = s.rxQueue ∨ ∃ b, s.rxQueue = b :: t.rxQueue := by
  cases h with
  | empty => exact .inl rfl
  | _ hq => exact .inr ⟨_, hq⟩

/-- A result other than `NONE` comes from a frame end or an overflow: back in NO_SYNC, one byte taken. -/
theorem PhyRow.noSync_of_result (h : PhyRow P s t) (hresult : t.result ≠ some .none) :
    t.NoSync ∧ ∃ b, s.rxQueue = b :: t.rxQueue := by
  cases h with
  | frameEnd hq | overflow hq => exact ⟨⟨rfl, rfl⟩, _, hq⟩
  | _ => exact absurd rfl hresult

/-! ### From a row to the receive operations -/

/-- What a receive operation adds to the row's state: `pending` and, from the upper stages, slots and the result. -/
theorem receive_row {blk : Blk} {op : RxOp} (h : receive P blk op s = .next t) :
    ∃ u p, PhyRow P s u ∧ KeepsReceiver { u with pending := p } t ∧ t.dir = u.dir := by
  rw [receive_next h]
  split_ifs
  · exact ⟨_, some op, phyAfter_row P s, rfl, rfl⟩
  · exact ⟨_, none, phyAfter_row P s, upperAfter_keepsReceiver P op _, by cases op <;> rfl⟩

/-- The non-blocking RX_PHY is the row (40 R113). -/
theorem exec_rxPhy_of_row (h : PhyRow Config.prims s t) (hcap : s.acc ≤ s.cfg.rxCap) :
    exec (.rxPhy .nonblock) s = .next { t with pending := none } := by
  rw [← h.eq_phyAfter]
  exact exec_nonblock .phy hcap

/-- Settles O35: RX_PHY has no upper stages. -/
theorem rxPhyNonblocking : Obligations.RxPhyNonblocking := fun _ hcap => exec_nonblock .phy hcap

/-- Settles O38: the two branches of `receive_eq`, and in the second both forms run the same upper stages. -/
theorem blockingTurn : Obligations.BlockingTurn := by
  refine fun op s hcap => ⟨fun hnone => ?_, fun hsome => ?_⟩
  · rw [exec_receive, receive_eq Config.prims .block op hcap, if_pos ⟨rfl, hnone⟩]
  · rw [exec_nonblock op hcap, exec_receive, receive_eq Config.prims .block op hcap, if_neg fun h => hsome h.2]

/-- Settles O39: a receive operation reads its blocking field through `blocks` alone. -/
theorem defaultBlocking : Obligations.DefaultBlocking := by
  intro op s
  simp only [exec_receive, receive]
  exact ⟨fun htrue => by simp [blocks, htrue], fun hfalse => by simp [blocks, hfalse]⟩

end Sys2Proof.Machine
end

section
/-! What the transmit operations can do to a state (43 R170 to R175): raise, finish, and the bracketed sequence on the
line, one after another. -/
namespace Sys2Proof.Machine

/-- The states that raising, finishing and putting a raw frame on the line lead to. -/
inductive TransmitReach (s : State) : State → Prop
  | refl : TransmitReach s s
  | raise {t : State} (h : TransmitReach s t) (l : Layer) {e : ErrorKind} (he : e.isNeverRaised = false) :
      TransmitReach s (t.raise l e)
  | finish {t : State} (h : TransmitReach s t) (l : Layer) (r : Result) : TransmitReach s (t.finish l r)
  | line {t : State} (h : TransmitReach s t) (raw : List Byte) : TransmitReach s (putOnLine raw t)

variable {P : Primitives} {s t : State} {dst : Byte} {bytes : List Byte} {size : Nat}

theorem txPhy_reach (h : txPhy P bytes size s = .next t) : TransmitReach s t := by
  obtain ⟨-, rfl⟩ | ⟨-, -, -, rfl⟩ | ⟨-, -, raw, -, rfl⟩ := txPhy_cases h
  · exact .raise .refl _ rfl
  · exact .raise .refl _ rfl
  · exact .line .refl raw

theorem txMac_reach (h : txMac P dst bytes size s = .next t) : TransmitReach s t := by
  obtain ⟨-, rfl⟩ | ⟨-, -, u, hu, rfl | rfl⟩ := txMac_cases h
  · exact .raise .refl _ rfl
  · exact .finish (txPhy_reach hu) _ _
  · exact .raise (txPhy_reach hu) _ rfl

theorem pktTx_reach (h : pktTx P dst bytes size s = .next t) : TransmitReach s t := by
  obtain ⟨-, rfl⟩ | ⟨-, -, u, hu, rfl | rfl⟩ := pktTx_cases h
  · exact .raise .refl _ rfl
  · exact .finish (txMac_reach hu) _ _
  · exact .raise (txMac_reach hu) _ rfl

/-- A transmit operation leaves the receiver alone (file 43). -/
theorem TransmitReach.keepsReceiver (h : TransmitReach s t) : KeepsReceiver s t := by
  induction h with
  | refl => rfl
  | raise _ l _ ih => exact ih.trans (State.raise_keepsReceiver _ l _)
  | finish _ l r ih => exact ih.trans (State.finish_keepsReceiver _ l r)
  | line _ raw ih => exact ih.trans (putOnLine_keepsReceiver raw _)

/-- The bracketed sequence ends in receive direction on every path (43 R171, R173). -/
theorem putOnLine_dir (raw : List Byte) (s : State) : (putOnLine raw s).dir = .rx := by
  obtain ⟨log, replies, h | h⟩ := putOnLine_cases raw s <;> rw [h]

/-- A transmit operation begun in receive direction ends in it. -/
theorem TransmitReach.dir (h : TransmitReach s t) (hs : s.dir = .rx) : t.dir = .rx := by
  induction h with
  | refl => exact hs
  | raise _ l _ ih => rwa [State.raise_dir]
  | finish _ l r ih => rwa [State.finish_dir]
  | line _ raw ih => exact putOnLine_dir raw _

/-- The instruction of an operation that answers a next state is a receive operation or reaches it by transmitting. -/
theorem exec_operation_cases {i : Instr} (hop : IsOperation i) (h : exec i s = .next t) :
    (∃ blk op, receive Config.prims blk op s = .next t) ∨ TransmitReach s t := by
  obtain ⟨op, blk, rfl⟩ | ⟨bytes, size, rfl⟩ | ⟨dst, bytes, size, rfl⟩ | ⟨dst, bytes, size, rfl⟩ := hop
  · exact .inl ⟨blk, op, exec_receive op blk s ▸ h⟩
  · exact .inr (txPhy_reach h)
  · exact .inr (txMac_reach h)
  · exact .inr (pktTx_reach h)

end Sys2Proof.Machine
end

section
/-! The invariant (10 R31) along a step: every row of the PHY table keeps it, the upper stages and the transmit
operations leave what it speaks of alone. -/
namespace Sys2Proof.Machine

variable {P : Primitives} {s t : State}

/-- The invariant speaks of the configuration, `SYNC`, `ACC`, RXBUF and `DIR` alone. -/
theorem State.Inv.congr (hs : s.Inv) (hcfg : t.cfg = s.cfg) (hsync : t.sync = s.sync) (hacc : t.acc = s.acc)
    (hbuf : t.rxbuf = s.rxbuf) (hdir : t.dir = .rx) : t.Inv where
  memory := hbuf ▸ hs.memory
  inside := by rw [hbuf, hcfg]; exact hs.inside
  accBound := by rw [hacc, hcfg]; exact hs.accBound
  idle := by rw [hsync, hacc]; exact hs.idle
  clean := by rw [hacc, hbuf, hcfg]; exact hs.clean
  config := hcfg ▸ hs.config
  direction := hdir

/-- An accumulation dropped or begun anew leaves no cell below `ACC`. -/
theorem State.Inv.of_acc_eq_zero (hs : s.Inv) (hcfg : t.cfg = s.cfg) (hacc : t.acc = 0) (hbuf : t.rxbuf = s.rxbuf)
    (hdir : t.dir = s.dir) : t.Inv where
  memory := hbuf ▸ hs.memory
  inside := by rw [hbuf, hcfg]; exact hs.inside
  accBound := hacc ▸ Nat.zero_le _
  idle _ := hacc
  clean := by simp [hacc]
  config := hcfg ▸ hs.config
  direction := hdir.trans hs.direction

/-- The cells below `ACC` after an append: the byte just stored, which is not the delimiter, or an older one. -/
theorem State.Inv.clean_append (hs : s.Inv) {b : Byte} (hdelim : b ≠ s.cfg.delim) {i : Nat} (hi : i < s.acc + 1) :
    Memory.read (Memory.write s.rxbuf s.acc b) i ≠ s.cfg.delim := by
  by_cases heq : i = s.acc
  · rwa [heq, Memory.read_write_same s.acc b hs.memory]
  · rw [Memory.read_write_other s.rxbuf b heq]
    exact hs.clean i (by omega)

theorem PhyRow.inv (h : PhyRow P s t) (hs : s.Inv) : t.Inv := by
  cases h with
  | empty | noise => exact hs.congr rfl rfl rfl rfl hs.direction
  | start | resync | frameEnd | overflow => exact hs.of_acc_eq_zero rfl rfl rfl rfl
  | @append b q _ hdelim hsync hroom =>
    have hlt : s.acc < s.cfg.rxCap := lt_of_le_of_ne hs.accBound hroom
    exact {
      memory := Memory.write_wf s.acc b hs.memory
      inside := fun c hc => (Memory.mem_write hc).elim (fun heq => heq ▸ hlt) (hs.inside c)
      accBound := hlt
      idle := fun hoff => absurd hsync (ne_true_of_eq_false hoff)
      clean := fun _ hi => hs.clean_append hdelim hi
      config := hs.config
      direction := hs.direction }

theorem KeepsReceiver.inv (h : KeepsReceiver s t) (hs : s.Inv) (hdir : t.dir = .rx) : t.Inv := by
  refine hs.congr ?_ ?_ h.acc h.rxbuf hdir <;> rw [h]

theorem receive_inv {blk : Blk} {op : RxOp} (h : receive P blk op s = .next t) (hs : s.Inv) : t.Inv := by
  obtain ⟨u, p, hrow, hkeeps, hdir⟩ := receive_row h
  have hu : u.Inv := hrow.inv hs
  have hup : State.Inv { u with pending := p } := hu.congr rfl rfl rfl rfl hu.direction
  exact hkeeps.inv hup (hdir.trans hu.direction)

/-- Settles O47: an idle step leaves what the invariant speaks of alone; an operation runs on a state that meets it, and
is a receive operation or transmits. -/
theorem stepKeepsInv : Obligations.StepKeepsInv := by
  intro s t hs h
  obtain rfl | ⟨i, rest, hop, hexec⟩ := step_cases h
  · exact hs.congr s.deliver_cfg s.deliver_sync s.deliver_acc s.deliver_rxbuf (s.deliver_dir.trans hs.direction)
  · have hserved : State.Inv { s.deliver with commands := rest } :=
      hs.congr s.deliver_cfg s.deliver_sync s.deliver_acc s.deliver_rxbuf (s.deliver_dir.trans hs.direction)
    obtain ⟨blk, op, hrx⟩ | htx := exec_operation_cases hop hexec
    · exact receive_inv hrx hserved
    · exact htx.keepsReceiver.inv hserved (htx.dir hserved.direction)

end Sys2Proof.Machine
end

section
/-! What an instruction leaves as it was: the configuration and the ports, the received bytes but the oldest, the slots of
the layers above (10 R21, 40 R100, 60 R222, R224). -/
namespace Sys2Proof.Machine

variable {P : Primitives} {s t : State}

/-- Settles O50: neither a row of the PHY table nor a `KeepsReceiver` change touches the three. -/
theorem configurationImmutable : Obligations.ConfigurationImmutable := by
  intro i s t h
  obtain ⟨op, blk, -, hrx⟩ | ⟨e, -, -, hstep⟩ | hkeeps := exec_cases h
  · obtain ⟨u, p, hrow, hkeeps, -⟩ := receive_row hrx
    rw [hkeeps, hrow.frame]
    exact ⟨rfl, rfl, rfl⟩
  · rw [(phyStep_row hstep).frame]
    exact ⟨rfl, rfl, rfl⟩
  · rw [hkeeps]
    exact ⟨rfl, rfl, rfl⟩

theorem KeepsReceiver.rxQueue (h : KeepsReceiver s t) : t.rxQueue = s.rxQueue := by rw [h]

theorem KeepsReceiver.sync (h : KeepsReceiver s t) : t.sync = s.sync := by rw [h]

/-- Settles O52: only a row of the PHY table takes a byte, and a transmit operation performs none. -/
theorem atMostOneByteConsumed : Obligations.AtMostOneByteConsumed := by
  refine ⟨fun i s t h => ?_, fun dst bytes size i s t hi h => ?_⟩
  · obtain ⟨op, blk, -, hrx⟩ | ⟨e, -, -, hstep⟩ | hkeeps := exec_cases h
    · obtain ⟨u, p, hrow, hkeeps, -⟩ := receive_row hrx
      rw [hkeeps.rxQueue]
      exact hrow.rxQueue
    · exact (phyStep_row hstep).rxQueue
    · exact .inl hkeeps.rxQueue
  · have hreach : TransmitReach s t := by
      obtain rfl | rfl | rfl := hi
      · exact txPhy_reach h
      · exact txMac_reach h
      · exact pktTx_reach h
    have hkeeps := hreach.keepsReceiver
    exact ⟨hkeeps.rxQueue, hkeeps.sync, hkeeps.acc, hkeeps.rxbuf, hreach.dir⟩

/-! ### The slots of the layers above -/

/-- The slots above the PHY are as before. -/
def KeepsUpperSlots (s t : State) : Prop := t.errMac = s.errMac ∧ t.errApp = s.errApp

theorem PhyRow.keepsUpperSlots (h : PhyRow P s t) : KeepsUpperSlots s t := by
  rw [h.frame]
  exact ⟨rfl, rfl⟩

theorem putOnLine_keepsUpperSlots (raw : List Byte) (s : State) : KeepsUpperSlots s (putOnLine raw s) := by
  obtain ⟨log, replies, h | h⟩ := putOnLine_cases raw s <;> rw [h] <;> exact ⟨rfl, rfl⟩

theorem txPhy_keepsUpperSlots {bytes : List Byte} {size : Nat} (h : txPhy P bytes size s = .next t) :
    KeepsUpperSlots s t := by
  obtain ⟨-, rfl⟩ | ⟨-, -, -, rfl⟩ | ⟨-, -, raw, -, rfl⟩ := txPhy_cases h
  · exact ⟨rfl, rfl⟩
  · exact ⟨rfl, rfl⟩
  · exact putOnLine_keepsUpperSlots raw s

theorem txMac_errApp {dst : Byte} {bytes : List Byte} {size : Nat} (h : txMac P dst bytes size s = .next t) :
    t.errApp = s.errApp := by
  obtain ⟨-, rfl⟩ | ⟨-, -, u, hu, rfl | rfl⟩ := txMac_cases h
  · rfl
  · exact (txPhy_keepsUpperSlots hu).2
  · exact (txPhy_keepsUpperSlots hu).2

/-- RX_PHY's state is the row's but for `pending` and, when it stays under way, the result. -/
theorem receive_phy_keepsUpperSlots {blk : Blk} (h : receive P blk .phy s = .next t) : KeepsUpperSlots s t := by
  rw [receive_next h]
  split_ifs <;> exact (phyAfter_row P s).keepsUpperSlots

/-- The MAC stage writes its own slot only. -/
theorem receive_mac_errApp {blk : Blk} (h : receive P blk .mac s = .next t) : t.errApp = s.errApp := by
  rw [receive_next h]
  split_ifs <;> exact (phyAfter_row P s).keepsUpperSlots.2

/-- Settles O53: the four operations one by one. -/
theorem upperSlotsUntouched : Obligations.UpperSlotsUntouched := fun _ _ _ _ _ _ =>
  ⟨receive_phy_keepsUpperSlots, receive_mac_errApp, txPhy_keepsUpperSlots, txMac_errApp⟩

/-! ### Hard errors -/

/-- Above a PHY result `NONE` every stage answers `NONE` (41 R135, 42 R157). -/
theorem upperAfter_result_none (P : Primitives) (op : RxOp) (h : s.result = some .none) :
    (upperAfter P op s).result = some .none := by
  cases op <;> simp [upperAfter, macAfter, appAfter, macResult, appResult, h]

/-- Settles O54: an error ends an operation whose PHY result is not `NONE`, and the PHY row is then a frame end or an
overflow. -/
theorem hardErrorLeavesNoSync : Obligations.HardErrorLeavesNoSync := by
  intro op blk s t e h herr
  rw [exec_receive] at h
  have hsome : (phyAfter Config.prims s).result ≠ some .none := by
    intro hnone
    rw [receive_next h] at herr
    split_ifs at herr
    have hupper := upperAfter_result_none (s := { phyAfter Config.prims s with pending := none }) Config.prims op hnone
    cases hupper.symm.trans herr
  obtain ⟨u, p, hrow, hkeeps, -⟩ := receive_row h
  rw [hrow.eq_phyAfter] at hsome
  obtain ⟨⟨hsync, hacc⟩, b, hq⟩ := hrow.noSync_of_result hsome
  exact ⟨⟨hkeeps.sync.trans hsync, hkeeps.acc.trans hacc⟩, b, hkeeps.rxQueue ▸ hq⟩

/-! ### The kinds that are never raised (60 R221) -/

/-- A result carries no kind that is never raised. -/
def Result.Raisable (r : Option Result) : Prop := ∀ e, r = some (.err e) → e.isNeverRaised = false

/-- What a stage answers, its slot and its result, is free of the kinds that are never raised. -/
def OutcomeRaisable (o : ErrorKind × Result) : Prop := o.1.isNeverRaised = false ∧ Result.Raisable (some o.2)

theorem outcomeRaisable_err {e : ErrorKind} (he : e.isNeverRaised = false) : OutcomeRaisable (e, .err e) := by
  refine ⟨he, fun e' h => ?_⟩
  cases h
  exact he

theorem outcomeRaisable_of_ne_err {e : ErrorKind} {r : Result} (he : e.isNeverRaised = false) (hr : ∀ e', r ≠ .err e') :
    OutcomeRaisable (e, r) :=
  ⟨he, fun e' h => absurd (Option.some.inj h) (hr e')⟩

theorem endResult_raisable (c : SessionConfig) (d : Decoded) : OutcomeRaisable (endResult c d) := by
  cases d with
  | fail | tooLong => exact outcomeRaisable_err rfl
  | ok f =>
    rw [endResult]
    split_ifs
    · exact outcomeRaisable_err rfl
    · exact outcomeRaisable_of_ne_err rfl nofun
    · exact outcomeRaisable_of_ne_err rfl nofun

theorem advisory_raisable (c : SessionConfig) (src : Byte) : (advisory c src).isNeverRaised = false := by
  rw [advisory]
  split_ifs <;> rfl

theorem macResult_raisable (c : SessionConfig) {r : Option Result} (hr : Result.Raisable r) :
    OutcomeRaisable (macResult c r) := by
  unfold macResult
  split
  · split_ifs
    · exact outcomeRaisable_err rfl
    · exact outcomeRaisable_of_ne_err (advisory_raisable c _) nofun
    · exact outcomeRaisable_of_ne_err (advisory_raisable c _) nofun
    · exact outcomeRaisable_of_ne_err rfl nofun
  · exact outcomeRaisable_err (hr _ rfl)
  · exact outcomeRaisable_of_ne_err rfl nofun

theorem appResult_raisable (P : Primitives) (filter : Option Byte) {r : Option Result} (hr : Result.Raisable r) :
    OutcomeRaisable (appResult P filter r) := by
  unfold appResult
  split
  · split_ifs
    · exact outcomeRaisable_of_ne_err rfl nofun
    · exact outcomeRaisable_err rfl
    · exact outcomeRaisable_err rfl
    · exact outcomeRaisable_of_ne_err rfl nofun
    · exact outcomeRaisable_of_ne_err rfl nofun
  · exact outcomeRaisable_err (hr _ rfl)
  · exact outcomeRaisable_of_ne_err rfl nofun
  · exact outcomeRaisable_of_ne_err rfl nofun

/-- Every row writes a slot and a result of its own, raisable both. -/
theorem PhyRow.raisable (h : PhyRow P s t) : t.errPhy.isNeverRaised = false ∧ Result.Raisable t.result := by
  cases h with
  | frameEnd => exact endResult_raisable s.cfg _
  | overflow => exact outcomeRaisable_err rfl
  | _ => exact outcomeRaisable_of_ne_err rfl nofun

theorem upperAfter_slotsRaisable (P : Primitives) (op : RxOp) (hs : s.SlotsRaisable) (hr : Result.Raisable s.result) :
    (upperAfter P op s).SlotsRaisable := by
  obtain ⟨hphy, hmac, happ⟩ := hs
  have hmacAfter := macResult_raisable s.cfg hr
  cases op with
  | phy => exact ⟨hphy, hmac, happ⟩
  | mac => exact ⟨hphy, hmacAfter.1, happ⟩
  | pkt filter => exact ⟨hphy, hmacAfter.1, (appResult_raisable P filter hmacAfter.2).1⟩

theorem receive_slotsRaisable {blk : Blk} {op : RxOp} (h : receive P blk op s = .next t) (hs : s.SlotsRaisable) :
    t.SlotsRaisable := by
  obtain ⟨-, hmac, happ⟩ := hs
  have hrow := phyAfter_row P s
  obtain ⟨hphy, hresult⟩ := hrow.raisable
  obtain ⟨hmacEq, happEq⟩ := hrow.keepsUpperSlots
  have hu : (phyAfter P s).SlotsRaisable := ⟨hphy, hmacEq ▸ hmac, happEq ▸ happ⟩
  rw [receive_next h]
  split_ifs
  · exact hu
  · exact upperAfter_slotsRaisable P op hu hresult

theorem State.SlotsRaisable.setSlot (hs : s.SlotsRaisable) (l : Layer) {e : ErrorKind} (he : e.isNeverRaised = false) :
    (s.setSlot l e).SlotsRaisable := by
  obtain ⟨hphy, hmac, happ⟩ := hs
  cases l with
  | phy => exact ⟨he, hmac, happ⟩
  | mac => exact ⟨hphy, he, happ⟩
  | app => exact ⟨hphy, hmac, he⟩

/-- A transmit operation raises Oversize, EncodeError and WriteError alone. -/
theorem TransmitReach.slotsRaisable (h : TransmitReach s t) (hs : s.SlotsRaisable) : t.SlotsRaisable := by
  induction h with
  | refl => exact hs
  | raise _ l he ih => exact ih.setSlot l he
  | finish _ l r ih => exact ih.setSlot l rfl
  | @line u _ raw ih =>
    obtain ⟨-, hmac, happ⟩ := ih
    obtain ⟨log, replies, h | h⟩ := putOnLine_cases raw u <;> rw [h] <;> exact ⟨rfl, hmac, happ⟩

/-- Settles O55: an idle step writes no slot; a receive operation and a transmit operation write raisable kinds. -/
theorem neverRaisedKinds : Obligations.NeverRaisedKinds := by
  intro s t hs h
  have hdelivered : s.deliver.SlotsRaisable := by rwa [State.deliver_eq]
  obtain rfl | ⟨i, rest, hop, hexec⟩ := step_cases h
  · exact hdelivered
  · obtain ⟨blk, op, hrx⟩ | htx := exec_operation_cases hop hexec
    · exact receive_slotsRaisable hrx hdelivered
    · exact htx.slotsRaisable hdelivered

end Sys2Proof.Machine
end

section
/-! Where an operation stops, and where it completes: the two stops of a PHY step, the refusal of a transmit operation
whose bytes are not there, and the refusals of rows whose class does not apply (logs 12, 13). -/
namespace Sys2Proof.Machine

variable {P : Primitives} {s : State}

/-! ### The PHY step -/

/-- Beyond RXBUF's cells PHY.APPEND has no cell to store in (20 R51). -/
theorem execPhyAppend_fault (hclass : phyClass s = .append) (hover : s.cfg.rxCap < s.acc) :
    execPhyAppend s = .fault .rxbufOutOfRange := by
  obtain ⟨b, q, hq, -, -⟩ := phyClass_append hclass
  have hcell : ¬s.acc < s.cfg.rxCap := hover.not_gt
  simp [execPhyAppend, whenClass_pos (decide_eq_true hclass), State.read, hq, State.memWrite, hcell]

/-- Beyond RXBUF's cells PHY.END has no frame to read (20 R52). -/
theorem phyEnd_fault (hclass : phyClass s = .frameEnd) (hover : s.cfg.rxCap < s.acc) :
    phyEnd P s = .fault .rxbufOutOfRange := by
  have hcells : ¬s.acc ≤ s.cfg.rxCap := hover.not_ge
  simp [phyEnd, whenClass_pos (decide_eq_true hclass), State.memRead, hcells]

/-- Only APPEND and END touch RXBUF: every other row completes in every state. -/
theorem phyStep_completes_of_class (happend : phyClass s ≠ .append) (hend : phyClass s ≠ .frameEnd) :
    ∃ t, phyStep P s = .next t := by
  rw [phyStep]
  cases hclass : phyClass s with
  | append => exact absurd hclass happend
  | frameEnd => exact absurd hclass hend
  | _ => exact ⟨_, whenClass_pos (decide_eq_true hclass)⟩

/-- The PHY step in every state: the table's row, but for an access past RXBUF's cells. -/
theorem phyStep_eq_ite (P : Primitives) (s : State) :
    phyStep P s =
      if s.cfg.rxCap < s.acc ∧ (phyClass s = .append ∨ phyClass s = .frameEnd) then .fault .rxbufOutOfRange
      else .next (phyAfter P s) := by
  split_ifs with hstop
  · obtain ⟨hover, hclass | hclass⟩ := hstop
    · simp only [phyStep, hclass, execPhyAppend_fault hclass hover]
    · simp only [phyStep, hclass, phyEnd_fault hclass hover]
  · by_cases hover : s.cfg.rxCap < s.acc
    · obtain ⟨t, ht⟩ := phyStep_completes_of_class (P := P) (fun h => hstop ⟨hover, .inl h⟩)
        fun h => hstop ⟨hover, .inr h⟩
      rw [ht, phyStep_next ht]
    · exact phyStep_eq P (Nat.not_lt.mp hover)

/-! ### The operations -/

theorem andThen_completes {o : Answer} {k : State → Answer} (ho : ∃ t, o = .next t) (hk : ∀ t, ∃ u, k t = .next u) :
    ∃ u, andThen o k = .next u := by
  obtain ⟨t, rfl⟩ := ho
  exact hk t

theorem afterPhy_completes (P : Primitives) (blocking : Bool) (op : RxOp) (s : State) :
    ∃ t, afterPhy P blocking op s = .next t := by
  rw [afterPhy]
  split_ifs
  · exact ⟨_, rfl⟩
  · exact ⟨_, upperStages_eq P op _⟩

theorem receive_outcome (P : Primitives) (blk : Blk) (op : RxOp) (s : State) :
    (∃ t, receive P blk op s = .next t) ∨ (s.cfg.rxCap < s.acc ∧ receive P blk op s = .fault .rxbufOutOfRange) := by
  rw [receive, phyStep_eq_ite]
  split_ifs with hstop
  · exact .inr ⟨hstop.1, rfl⟩
  · exact .inl (afterPhy_completes P _ op _)

theorem afterTxPhy_completes (size : Nat) (s : State) : ∃ t, afterTxPhy size s = .next t := by
  unfold afterTxPhy
  split
  · split_ifs <;> exact ⟨_, rfl⟩
  · exact ⟨_, rfl⟩

theorem afterTxMac_completes (size : Nat) (s : State) : ∃ t, afterTxMac size s = .next t := by
  unfold afterTxMac
  split <;> exact ⟨_, rfl⟩

theorem txPhy_outcome (P : Primitives) (bytes : List Byte) (size : Nat) (s : State) :
    (∃ t, txPhy P bytes size s = .next t) ∨
      (bytes.length < size ∧ txPhy P bytes size s = .refused .sizeBeyondPayload) := by
  unfold txPhy
  split_ifs with hcap hlen
  · exact .inl ⟨_, rfl⟩
  · exact .inr ⟨hlen, rfl⟩
  · split <;> exact .inl ⟨_, rfl⟩

/-- With the bytes there a transmit operation completes; the inner one of a layer is always given its bytes. -/
theorem txPhy_completes {bytes : List Byte} {size : Nat} (h : size ≤ bytes.length) :
    ∃ t, txPhy P bytes size s = .next t :=
  (txPhy_outcome P bytes size s).resolve_right fun hstop => h.not_gt hstop.1

theorem txMac_outcome (P : Primitives) (dst : Byte) (bytes : List Byte) (size : Nat) (s : State) :
    (∃ t, txMac P dst bytes size s = .next t) ∨
      (bytes.length < size ∧ txMac P dst bytes size s = .refused .sizeBeyondPayload) := by
  unfold txMac
  split_ifs with hmax hlen
  · exact .inl ⟨_, rfl⟩
  · exact .inr ⟨hlen, rfl⟩
  · refine .inl (andThen_completes (txPhy_completes ?_) (afterTxPhy_completes size))
    simp only [macFrame, List.length_cons, List.length_take]
    omega

theorem txMac_completes {dst : Byte} {bytes : List Byte} {size : Nat} (h : size ≤ bytes.length) :
    ∃ t, txMac P dst bytes size s = .next t :=
  (txMac_outcome P dst bytes size s).resolve_right fun hstop => h.not_gt hstop.1

@[simp] theorem withTrailer_length (P : Primitives) (d : List Byte) : (withTrailer P d).length = d.length + 2 := by
  simp [withTrailer, trailer]

theorem pktTx_outcome (P : Primitives) (dst : Byte) (bytes : List Byte) (size : Nat) (s : State) :
    (∃ t, pktTx P dst bytes size s = .next t) ∨
      (bytes.length < size ∧ pktTx P dst bytes size s = .refused .sizeBeyondPayload) := by
  unfold pktTx
  split_ifs with hmax hlen
  · exact .inl ⟨_, rfl⟩
  · exact .inr ⟨hlen, rfl⟩
  · refine .inl (andThen_completes (txMac_completes ?_) (afterTxMac_completes size))
    simp only [withTrailer_length, List.length_take]
    omega

/-- An operation completes, or stops by the one name its kind has: a receive operation where `ACC` is beyond RXBUF, a
transmit operation where its bytes are not there. -/
theorem exec_operation_outcome {i : Instr} (hop : IsOperation i) (s : State) :
    (∃ t, exec i s = .next t) ∨ (s.cfg.rxCap < s.acc ∧ exec i s = .fault .rxbufOutOfRange) ∨
      (i.wellFormed = false ∧ exec i s = .refused .sizeBeyondPayload) := by
  obtain ⟨op, blk, rfl⟩ | ⟨bytes, size, rfl⟩ | ⟨dst, bytes, size, rfl⟩ | ⟨dst, bytes, size, rfl⟩ := hop
  · rw [exec_receive]
    exact (receive_outcome Config.prims blk op s).imp_right .inl
  · exact (txPhy_outcome Config.prims bytes size s).imp_right fun hstop =>
      .inr ⟨decide_eq_false hstop.1.not_ge, hstop.2⟩
  · exact (txMac_outcome Config.prims dst bytes size s).imp_right fun hstop =>
      .inr ⟨decide_eq_false hstop.1.not_ge, hstop.2⟩
  · exact (pktTx_outcome Config.prims dst bytes size s).imp_right fun hstop =>
      .inr ⟨decide_eq_false hstop.1.not_ge, hstop.2⟩

/-- Inside RXBUF and with its bytes there an operation completes. -/
theorem exec_operation_completes {i : Instr} (hop : IsOperation i) (hcap : s.acc ≤ s.cfg.rxCap)
    (hwf : i.wellFormed = true) : ∃ t, exec i s = .next t := by
  obtain hnext | ⟨hover, -⟩ | ⟨hill, -⟩ := exec_operation_outcome hop s
  · exact hnext
  · exact absurd hover hcap.not_gt
  · exact absurd hwf (ne_true_of_eq_false hill)

/-! ### The step -/

/-- Settles O48: a blocking operation's next turn and a good command are operations that complete. -/
theorem stepCompletes : Obligations.StepCompletes := by
  intro s hs hgood
  have hcap : s.deliver.acc ≤ s.deliver.cfg.rxCap := by
    rw [State.deliver_acc, State.deliver_cfg]
    exact hs.accBound
  cases hidle : s.pending with
  | some op =>
    rw [step_of_pending hidle]
    have hwf : (op.instr .block).wellFormed = true := by rcases op with _ | _ | _ | _ <;> rfl
    exact exec_operation_completes (.inl ⟨op, .block, rfl⟩) hcap hwf
  | none =>
    cases hport : s.commands with
    | nil => exact ⟨_, step_of_no_command hidle hport⟩
    | cons c rest =>
      obtain ⟨i, hdecode, hwf⟩ := hgood c (hport ▸ List.mem_cons_self)
      rw [step_of_command hidle hport hdecode]
      exact exec_operation_completes (decodeCommand_operation hdecode) hcap hwf

/-- No operation is refused as a row whose class does not apply. -/
theorem exec_operation_class_applies {i : Instr} (hop : IsOperation i) (s : State) (m : String) :
    exec i s ≠ .refused (.classDoesNotApply m) := by
  obtain ⟨t, h⟩ | ⟨-, h⟩ | ⟨-, h⟩ := exec_operation_outcome hop s <;> rw [h] <;> nofun

/-- A step performs the class that applies. -/
theorem step_class_applies (s : State) (m : String) : step s ≠ .refused (.classDoesNotApply m) := by
  cases hidle : s.pending with
  | some op =>
    rw [step_of_pending hidle]
    exact exec_operation_class_applies (.inl ⟨op, .block, rfl⟩) _ m
  | none =>
    cases hport : s.commands with
    | nil => rw [step_of_no_command hidle hport]; nofun
    | cons c rest =>
      cases hdecode : decodeCommand c.word c.operands with
      | ok i =>
        rw [step_of_command hidle hport hdecode]
        exact exec_operation_class_applies (decodeCommand_operation hdecode) _ m
      | error why => rw [step_of_reserved hidle hport hdecode]; nofun

/-! ### Rows whose class does not apply -/

theorem whenClass_neg {m : String} {p : Bool} {k : Answer} (h : p = false) :
    whenClass m p k = .refused (.classDoesNotApply m) := by
  simp [whenClass, h]

theorem phyEvent_refused {e : PhyEvent} (h : phyClass s ≠ e) :
    ∃ m, exec e.toInstr s = .refused (.classDoesNotApply m) := by
  cases e <;> exact ⟨_, whenClass_neg (decide_eq_false h)⟩

theorem endOutcome_refused {o : Operands} {e : EndOutcome} (h : endClass Config.prims s.cfg o.payload ≠ e) :
    ∃ m, exec (e.toInstr o) s = .refused (.classDoesNotApply m) := by
  cases e <;> exact ⟨_, whenClass_neg (decide_eq_false h)⟩

theorem macOutcome_refused {o : Operands} {e : MacOutcome} (h : macClass s.cfg o.payload ≠ e) :
    ∃ m, exec (e.toInstr o) s = .refused (.classDoesNotApply m) := by
  cases e <;> exact ⟨_, whenClass_neg (decide_eq_false h)⟩

/-- NONE, RUNT and CKERR do not ask the source (30 R83). -/
theorem appClass_source_irrelevant (P : Primitives) (src : Byte) (filter : Option Byte) (p : List Byte) :
    (appClass P 0 none p = .none ↔ appClass P src filter p = .none) ∧
    (appClass P 0 none p = .runt ↔ appClass P src filter p = .runt) ∧
    (appClass P 0 none p = .ckerr ↔ appClass P src filter p = .ckerr) := by
  obtain ⟨hnone, hrunt, hckerr, -, -⟩ := appClass_table P src filter p
  obtain ⟨hnone', hrunt', hckerr', -, -⟩ := appClass_table P 0 none p
  exact ⟨hnone'.trans hnone.symm, hrunt'.trans hrunt.symm, hckerr'.trans hckerr.symm⟩

theorem appOutcome_refused {o : Operands} {e : AppOutcome} (hfiltered : e = .srcDrop → o.filtered = true)
    (h : appClass Config.prims o.src o.filter o.payload ≠ e) :
    ∃ m, exec (e.toInstr o) s = .refused (.classDoesNotApply m) := by
  obtain ⟨hnone, hrunt, hckerr⟩ := appClass_source_irrelevant Config.prims o.src o.filter o.payload
  cases e with
  | none => exact ⟨_, whenClass_neg (decide_eq_false (mt hnone.mp h))⟩
  | runt => exact ⟨_, whenClass_neg (decide_eq_false (mt hrunt.mp h))⟩
  | ckerr => exact ⟨_, whenClass_neg (decide_eq_false (mt hckerr.mp h))⟩
  | srcDrop =>
    rw [Operands.filter, if_pos (hfiltered rfl)] at h
    exact ⟨_, whenClass_neg (decide_eq_false h)⟩
  | ok => exact ⟨_, whenClass_neg (decide_eq_false h)⟩

/-- A size within the layer's maximum and beyond the bytes given (log 13). -/
theorem transmit_sizeBeyondPayload (s : State) (dst : Byte) {bytes : List Byte} {size : Nat} (h : bytes.length < size) :
    (size ≤ s.cfg.rxCap → exec (.txPhy bytes size) s = .refused .sizeBeyondPayload) ∧
    (size ≤ s.cfg.payloadMax → exec (.txMac dst bytes size) s = .refused .sizeBeyondPayload) ∧
    (size + 2 ≤ s.cfg.payloadMax → exec (.pktTx dst bytes size) s = .refused .sizeBeyondPayload) :=
  ⟨fun hmax => (if_neg hmax.not_gt).trans (if_pos h), fun hmax => (if_neg hmax.not_gt).trans (if_pos h),
    fun hmax => (if_neg hmax.not_gt).trans (if_pos h)⟩

/-- Settles O49: the step, the rows of the four formats, the sizes, and the two accesses to RXBUF. -/
theorem stopsByName : Obligations.StopsByName := by
  refine ⟨step_class_applies, fun _ _ => phyEvent_refused, fun _ _ _ => endOutcome_refused,
    fun _ _ _ => macOutcome_refused, fun _ _ _ => appOutcome_refused, fun s dst _ _ => transmit_sizeBeyondPayload s dst,
    fun s hover hclass => ?_⟩
  obtain hclass | hclass := hclass
  · rw [hclass]
    exact execPhyAppend_fault hclass hover
  · rw [hclass]
    exact phyEnd_fault hclass hover

end Sys2Proof.Machine
end

section
/-! RXBUF cells at and above `ACC` are unobservable (20 R53): states that agree below `ACC` go on to agree below `ACC`. -/
namespace Sys2Proof.Machine

variable {P : Primitives} {s t u : State}

/-! ### Operations that do not touch RXBUF -/

theorem AgreeBelowAcc.cfg (h : AgreeBelowAcc s t) : t.cfg = s.cfg := by rw [h.1]

theorem AgreeBelowAcc.result (h : AgreeBelowAcc s t) : t.result = s.result := by rw [h.1]

/-- An operation that another RXBUF passes through, and that leaves `ACC`, keeps the agreement. -/
theorem AgreeBelowAcc.map {f : State → State} (hbuf : ∀ m, f { s with rxbuf := m } = { f s with rxbuf := m })
    (hacc : (f s).acc = s.acc) (h : AgreeBelowAcc s t) : AgreeBelowAcc (f s) (f t) := by
  obtain ⟨heq, hread⟩ := h
  have hft : f t = { f s with rxbuf := t.rxbuf } := (congrArg f heq).trans (hbuf t.rxbuf)
  have hfs : (f s).rxbuf = s.rxbuf := (congrArg State.rxbuf (hbuf s.rxbuf) :)
  rw [hft]
  refine ⟨rfl, fun i hi => ?_⟩
  rw [hfs]
  exact hread i (hacc ▸ hi)

theorem AgreeBelowAcc.raise (h : AgreeBelowAcc s t) (l : Layer) (e : ErrorKind) :
    AgreeBelowAcc (s.raise l e) (t.raise l e) :=
  h.map (f := fun s => s.raise l e) (fun _ => by cases l <;> rfl) (s.raise_acc l e)

theorem AgreeBelowAcc.finish (h : AgreeBelowAcc s t) (l : Layer) (r : Result) :
    AgreeBelowAcc (s.finish l r) (t.finish l r) :=
  h.map (f := fun s => s.finish l r) (fun _ => by cases l <;> rfl) (s.finish_acc l r)

theorem AgreeBelowAcc.upperAfter (h : AgreeBelowAcc s t) (P : Primitives) (op : RxOp) :
    AgreeBelowAcc (upperAfter P op s) (upperAfter P op t) :=
  h.map (f := Machine.upperAfter P op) (fun _ => by cases op <;> rfl) (upperAfter_keepsReceiver P op s).acc

theorem State.write_rxbuf (s : State) (m : Memory) (bytes : List Byte) :
    State.write { s with rxbuf := m } bytes = ({ (s.write bytes).1 with rxbuf := m }, (s.write bytes).2) := by
  unfold State.write
  dsimp only
  cases s.writeReplies with
  | nil => rfl
  | cons r rest => dsimp only; split_ifs <;> rfl

theorem writeAll_rxbuf (pieces : List (List Byte)) (s : State) (m : Memory) :
    writeAll pieces { s with rxbuf := m } = ({ (writeAll pieces s).1 with rxbuf := m }, (writeAll pieces s).2) := by
  induction pieces generalizing s with
  | nil => rfl
  | cons p pieces ih =>
    simp only [writeAll, State.write_rxbuf]
    split_ifs
    · rfl
    · exact ih (s.write p).1

theorem putOnLine_rxbuf (raw : List Byte) (s : State) (m : Memory) :
    putOnLine raw { s with rxbuf := m } = { putOnLine raw s with rxbuf := m } := by
  have hwrite := writeAll_rxbuf [[s.cfg.delim], raw, [s.cfg.delim]] s.setTransmitMode m
  unfold putOnLine
  rw [show State.setTransmitMode { s with rxbuf := m } = { s.setTransmitMode with rxbuf := m } from rfl, hwrite]
  dsimp only
  split_ifs <;> rfl

theorem AgreeBelowAcc.putOnLine (h : AgreeBelowAcc s t) (raw : List Byte) :
    AgreeBelowAcc (putOnLine raw s) (putOnLine raw t) :=
  h.map (putOnLine_rxbuf raw s) (putOnLine_keepsReceiver raw s).acc

/-! ### Answers -/

theorem SameBelowAcc.andThen {o o' : Answer} {k k' : State → Answer} (h : SameBelowAcc o o')
    (hk : ∀ u v, AgreeBelowAcc u v → SameBelowAcc (k u) (k' v)) : SameBelowAcc (andThen o k) (andThen o' k') := by
  cases o with
  | next u =>
    cases o' with
    | next v => exact hk u v h
    | fault | refused => exact False.elim h
  | fault =>
    cases o' with
    | fault => exact h
    | next | refused => exact False.elim h
  | refused =>
    cases o' with
    | refused => exact h
    | next | fault => exact False.elim h

/-! ### The transmit operations -/

theorem txPhy_sameBelowAcc (h : AgreeBelowAcc s t) (P : Primitives) (bytes : List Byte) (size : Nat) :
    SameBelowAcc (txPhy P bytes size s) (txPhy P bytes size t) := by
  simp only [txPhy, h.cfg]
  split_ifs
  · exact h.raise .phy .oversize
  · rfl
  · cases P.encode s.cfg.mode (bytes.take size) with
    | none => exact h.raise .phy .encodeError
    | some raw => exact h.putOnLine raw

theorem afterTxPhy_sameBelowAcc (h : AgreeBelowAcc s t) (size : Nat) :
    SameBelowAcc (afterTxPhy size s) (afterTxPhy size t) := by
  unfold afterTxPhy
  rw [h.result]
  split
  · split_ifs
    · exact h.finish .mac _
    · exact h.raise .mac _
  · exact h.raise .mac _

theorem txMac_sameBelowAcc (h : AgreeBelowAcc s t) (P : Primitives) (dst : Byte) (bytes : List Byte) (size : Nat) :
    SameBelowAcc (txMac P dst bytes size s) (txMac P dst bytes size t) := by
  simp only [txMac, h.cfg]
  split_ifs
  · exact h.raise .mac .oversize
  · rfl
  · exact (txPhy_sameBelowAcc h P _ _).andThen fun _ _ hinner => afterTxPhy_sameBelowAcc hinner size

theorem afterTxMac_sameBelowAcc (h : AgreeBelowAcc s t) (size : Nat) :
    SameBelowAcc (afterTxMac size s) (afterTxMac size t) := by
  unfold afterTxMac
  rw [h.result]
  split
  · exact h.raise .app _
  · exact h.finish .app _

theorem pktTx_sameBelowAcc (h : AgreeBelowAcc s t) (P : Primitives) (dst : Byte) (bytes : List Byte) (size : Nat) :
    SameBelowAcc (pktTx P dst bytes size s) (pktTx P dst bytes size t) := by
  simp only [pktTx, h.cfg]
  split_ifs
  · exact h.raise .app .oversize
  · rfl
  · exact (txMac_sameBelowAcc h P dst _ _).andThen fun _ _ hinner => afterTxMac_sameBelowAcc hinner size

/-! ### The receive operations -/

/-- The same row of the PHY table applies in both states: the frame end reads cells below `ACC`, the append stores at
`ACC`, and no other row touches RXBUF. -/
theorem PhyRow.agreeBelowAcc {m : Memory} (h : PhyRow P s u) (hs : Memory.wf s.rxbuf) (hm : Memory.wf m)
    (hread : ∀ i, i < s.acc → Memory.read m i = Memory.read s.rxbuf i) :
    ∃ v, PhyRow P { s with rxbuf := m } v ∧ AgreeBelowAcc u v := by
  cases h with
  | empty hq => exact ⟨_, .empty hq, rfl, hread⟩
  | start hq hsync => exact ⟨_, .start hq hsync, rfl, nofun⟩
  | resync hq hsync hacc => exact ⟨_, .resync hq hsync hacc, rfl, nofun⟩
  | frameEnd hq hsync hacc hraw =>
    exact ⟨_, .frameEnd hq hsync hacc ((Memory.prefixFrom_congr hread).trans hraw), rfl, nofun⟩
  | noise hq hdelim hsync => exact ⟨_, .noise hq hdelim hsync, rfl, hread⟩
  | overflow hq hdelim hsync hfull => exact ⟨_, .overflow hq hdelim hsync hfull, rfl, nofun⟩
  | @append b q hq hdelim hsync hroom =>
    refine ⟨_, .append hq hdelim hsync hroom, rfl, fun i hi => ?_⟩
    dsimp only at hi ⊢
    by_cases hlast : i = s.acc
    · rw [hlast, Memory.read_write_same _ b hm, Memory.read_write_same _ b hs]
    · rw [Memory.read_write_other m b hlast, Memory.read_write_other s.rxbuf b hlast]
      exact hread i (by omega)

theorem phyStep_sameBelowAcc (P : Primitives) (hs : Memory.wf s.rxbuf) (ht : Memory.wf t.rxbuf)
    (h : AgreeBelowAcc s t) : SameBelowAcc (phyStep P s) (phyStep P t) := by
  obtain ⟨heq, hread⟩ := h
  obtain ⟨v, hrow, hagree⟩ := (phyAfter_row P s).agreeBelowAcc hs ht hread
  rw [← heq] at hrow
  have hcfg : t.cfg = s.cfg := by rw [heq]
  have hacc : t.acc = s.acc := by rw [heq]
  have hclass : phyClass t = phyClass s := by rw [heq]; rfl
  rw [phyStep_eq_ite, phyStep_eq_ite, hcfg, hacc, hclass, hrow.eq_phyAfter]
  split_ifs
  · rfl
  · exact hagree

theorem afterPhy_sameBelowAcc (h : AgreeBelowAcc s t) (P : Primitives) (blocking : Bool) (op : RxOp) :
    SameBelowAcc (afterPhy P blocking op s) (afterPhy P blocking op t) := by
  rw [afterPhy, afterPhy, upperStages_eq, upperStages_eq]
  by_cases hround : blocking ∧ s.result = some .none
  · rw [if_pos hround, if_pos (h.result ▸ hround)]
    exact h.map (f := fun s => { s with pending := some op, result := none }) (fun _ => rfl) rfl
  · rw [if_neg hround, if_neg (h.result ▸ hround)]
    exact (h.map (f := fun s => { s with pending := none }) (fun _ => rfl) rfl).upperAfter P op

theorem exec_operation_sameBelowAcc {i : Instr} (hop : IsOperation i) (hs : Memory.wf s.rxbuf)
    (ht : Memory.wf t.rxbuf) (h : AgreeBelowAcc s t) : SameBelowAcc (exec i s) (exec i t) := by
  obtain ⟨op, blk, rfl⟩ | ⟨bytes, size, rfl⟩ | ⟨dst, bytes, size, rfl⟩ | ⟨dst, bytes, size, rfl⟩ := hop
  · rw [exec_receive, exec_receive, receive, receive, h.cfg]
    exact (phyStep_sameBelowAcc Config.prims hs ht h).andThen fun _ _ hphy =>
      afterPhy_sameBelowAcc hphy Config.prims _ op
  · exact txPhy_sameBelowAcc h Config.prims bytes size
  · exact txMac_sameBelowAcc h Config.prims dst bytes size
  · exact pktTx_sameBelowAcc h Config.prims dst bytes size

/-! ### The step -/

theorem AgreeBelowAcc.deliver (h : AgreeBelowAcc s t) : AgreeBelowAcc s.deliver t.deliver :=
  h.map (f := State.deliver) (fun _ => by simp only [State.deliver_eq]) s.deliver_acc

/-- Settles O56: both states take their instruction from the same source, and an operation keeps the agreement. -/
theorem staleCellsUnobservable : Obligations.StaleCellsUnobservable := by
  intro s t hs ht h
  have hpending : t.pending = s.pending := by rw [h.1]
  have hcommands : t.commands = s.commands := by rw [h.1]
  have hs' : Memory.wf s.deliver.rxbuf := s.deliver_rxbuf ▸ hs
  have ht' : Memory.wf t.deliver.rxbuf := t.deliver_rxbuf ▸ ht
  cases hidle : s.pending with
  | some op =>
    rw [step_of_pending hidle, step_of_pending (hpending.trans hidle)]
    exact exec_operation_sameBelowAcc (.inl ⟨op, .block, rfl⟩) hs' ht' h.deliver
  | none =>
    have hidle' := hpending.trans hidle
    cases hport : s.commands with
    | nil =>
      rw [step_of_no_command hidle hport, step_of_no_command hidle' (hcommands.trans hport)]
      exact h.deliver
    | cons c rest =>
      have hport' := hcommands.trans hport
      cases hdecode : decodeCommand c.word c.operands with
      | ok i =>
        rw [step_of_command hidle hport hdecode, step_of_command hidle' hport' hdecode]
        exact exec_operation_sameBelowAcc (decodeCommand_operation hdecode) hs' ht'
          (h.deliver.map (f := fun s => { s with commands := rest }) (fun _ => rfl) rfl)
      | error why =>
        rw [step_of_reserved hidle hport hdecode, step_of_reserved hidle' hport' hdecode]
        rfl

end Sys2Proof.Machine
end

section
/-! Successive RX_PHY operations over a byte stream (40 R117, 70 R273, 95 E1): a receiver that waits for a delimiter, one
that accumulates, and how each byte leads from one to the other. -/
namespace Sys2Proof.Machine

/-! ### Runs -/

/-- What the host sees of a state (10 R40). -/
def State.seen (s : State) : Seen := (s.result, s.errPhy, s.sync, s.acc)

/-- What the host sees of an operation whose result is `NONE`. -/
def seenNone (slot : ErrorKind) (sync : Bool) (acc : Nat) : Seen := (some .none, slot, sync, acc)

/-- What the host sees of an operation that ends in NO_SYNC with the slot and the result `o`. -/
def seenEnd (o : ErrorKind × Result) : Seen := (some o.2, o.1, false, 0)

/-- What a completed raw frame comes to at the machine's codec (30 R81). -/
def frameOutcome (c : SessionConfig) (raw : List Byte) : ErrorKind × Result :=
  endResult c (Config.prims.decode c.mode raw)

/-- `Hears s seen t`: non-blocking RX_PHY operations lead from `s` to `t`, and the host sees `seen`, one entry each. -/
inductive Hears : State → List Seen → State → Prop
  | nil (s : State) : Hears s [] s
  | cons {s t u : State} {seen : List Seen} (hexec : exec (.rxPhy .nonblock) s = .next t) (h : Hears t seen u) :
      Hears s (t.seen :: seen) u

variable {s t u : State} {xs ys : List Seen} {c : SessionConfig} {m : Memory} {q noise raw : List Byte} {n : Nat}

theorem Hears.receiveRun_eq (h : Hears s xs t) (hn : n = xs.length) : receiveRun n s = some (xs, t) := by
  subst hn
  induction h with
  | nil => rfl
  | cons hexec _ ih =>
    rw [List.length_cons, receiveRun, hexec]
    simp only [ih, Option.map_some, State.seen]

theorem Hears.append (hst : Hears s xs t) (htu : Hears t ys u) : Hears s (xs ++ ys) u := by
  induction hst with
  | nil => exact htu
  | cons hexec _ ih => exact .cons hexec (ih htu)

/-- One operation performs the row of the PHY table (40 R113). -/
theorem Hears.of_row {x : Seen} (h : PhyRow Config.prims s t) (hcap : s.acc ≤ s.cfg.rxCap) (hseen : t.seen = x) :
    Hears s [x] { t with pending := none } := by
  subst hseen
  have hcons := Hears.cons (exec_rxPhy_of_row h hcap) (.nil _)
  exact hcons

/-! ### The two kinds of receiver -/

/-- A receiver in NO_SYNC with RXBUF `m` and the bytes `q` to come. -/
structure Waiting (c : SessionConfig) (m : Memory) (q : List Byte) (s : State) : Prop where
  cfg : s.cfg = c
  noSync : s.NoSync
  rxbuf : s.rxbuf = m
  rxQueue : s.rxQueue = q

/-- A synchronized receiver with `n` bytes accumulated in RXBUF `m` and the bytes `q` to come. -/
structure Accumulating (c : SessionConfig) (m : Memory) (n : Nat) (q : List Byte) (s : State) : Prop where
  cfg : s.cfg = c
  sync : s.sync = true
  acc : s.acc = n
  rxbuf : s.rxbuf = m
  rxQueue : s.rxQueue = q

/-- A byte that is not the delimiter is noise (40 R107). -/
theorem Waiting.hears_noise_byte {b : Byte} (h : Waiting c m (b :: q) s) (hb : b ≠ c.delim) :
    ∃ t, Hears s [seenNone .noiseData false 0] t ∧ Waiting c m q t := by
  obtain ⟨rfl, ⟨hsync, hacc⟩, hbuf, hq⟩ := h
  have hseen : seenNone .noiseData s.sync s.acc = seenNone .noiseData false 0 := by
    rw [hsync, hacc]
  exact ⟨_, .of_row (.noise hq hb hsync) (hacc ▸ Nat.zero_le _) hseen, rfl, ⟨hsync, hacc⟩, hbuf, rfl⟩

theorem Waiting.hears_noise (h : Waiting c m (noise ++ q) s) (hclean : c.delim ∉ noise) :
    ∃ t, Hears s (List.replicate noise.length (seenNone .noiseData false 0)) t ∧ Waiting c m q t := by
  induction noise generalizing s with
  | nil => exact ⟨s, .nil s, h⟩
  | cons b noise ih =>
    obtain ⟨hb, hclean⟩ := not_or.mp (List.mem_cons.not.mp hclean)
    obtain ⟨s1, hfirst, h1⟩ := h.hears_noise_byte (Ne.symm hb)
    obtain ⟨t, hrest, ht⟩ := ih h1 hclean
    exact ⟨t, hfirst.append hrest, ht⟩

/-- A delimiter starts a frame (40 R102). -/
theorem Waiting.hears_delim (h : Waiting c m (c.delim :: q) s) :
    ∃ t, Hears s [seenNone .noError true 0] t ∧ Accumulating c m 0 q t := by
  obtain ⟨rfl, ⟨hsync, hacc⟩, hbuf, hq⟩ := h
  exact ⟨_, .of_row (.start hq hsync) (hacc ▸ Nat.zero_le _) rfl, rfl, rfl, rfl, hbuf, rfl⟩

/-- A delimiter right after a delimiter resynchronizes (40 R103). -/
theorem Accumulating.hears_second_delim (h : Accumulating c m 0 (c.delim :: q) s) :
    ∃ t, Hears s [seenNone .noError false 0] t ∧ Waiting c m q t := by
  obtain ⟨rfl, hsync, hacc, hbuf, hq⟩ := h
  exact ⟨_, .of_row (.resync hq hsync hacc) (hacc ▸ Nat.zero_le _) rfl, rfl, ⟨rfl, rfl⟩, hbuf, rfl⟩

/-- A store at `n` makes one more byte of the first `n + 1` cells. -/
theorem Memory.prefixFrom_write (hm : Memory.wf m) (n : Nat) (b : Byte) :
    Memory.prefixFrom (Memory.write m n b) 0 (n + 1) = Memory.prefixFrom m 0 n ++ [b] := by
  have hbelow : ∀ i, i < n → Memory.read (Memory.write m n b) i = Memory.read m i :=
    fun i hi => Memory.read_write_other m b hi.ne
  rw [Memory.prefixFrom_succ, Memory.prefixFrom_congr hbelow, Nat.zero_add, Memory.read_write_same n b hm]

/-- A byte of a frame is stored at `ACC`, which counts it (40 R105). -/
theorem Accumulating.hears_byte {b : Byte} (h : Accumulating c m n (b :: q) s) (hb : b ≠ c.delim) (hroom : n < c.rxCap) :
    ∃ t, Hears s [seenNone .noError true (n + 1)] t ∧ Accumulating c (Memory.write m n b) (n + 1) q t := by
  obtain ⟨rfl, hsync, rfl, rfl, hq⟩ := h
  have hseen : seenNone .noError s.sync (s.acc + 1) = seenNone .noError true (s.acc + 1) := by
    rw [hsync]
  exact ⟨_, .of_row (.append hq hb hsync hroom.ne) hroom.le hseen, rfl, hsync, rfl, rfl, rfl⟩

/-- The bytes of a frame are accumulated in order. -/
theorem Accumulating.hears_bytes (h : Accumulating c m n (raw ++ q) s) (hm : Memory.wf m) (hclean : c.delim ∉ raw)
    (hfits : n + raw.length ≤ c.rxCap) :
    ∃ t m', Hears s ((List.range raw.length).map fun i => seenNone .noError true (n + i + 1)) t ∧
      Accumulating c m' (n + raw.length) q t ∧
      Memory.prefixFrom m' 0 (n + raw.length) = Memory.prefixFrom m 0 n ++ raw := by
  induction raw generalizing s n m with
  | nil => exact ⟨s, m, .nil s, h, (List.append_nil _).symm⟩
  | cons b raw ih =>
    obtain ⟨hb, hclean⟩ := not_or.mp (List.mem_cons.not.mp hclean)
    have hlen : n + (b :: raw).length = n + 1 + raw.length := by rw [List.length_cons]; omega
    obtain ⟨s1, hfirst, h1⟩ := h.hears_byte (Ne.symm hb) (by omega)
    obtain ⟨t, m', hrest, ht, hcells⟩ := ih h1 (Memory.write_wf n b hm) hclean (by omega)
    have hseen : ((List.range (b :: raw).length).map fun i => seenNone .noError true (n + i + 1)) =
        [seenNone .noError true (n + 1)] ++
          (List.range raw.length).map fun i => seenNone .noError true (n + 1 + i + 1) := by
      rw [List.length_cons, List.range_succ_eq_map, List.map_cons, List.map_map]
      simp only [Function.comp_def, Nat.succ_eq_add_one, Nat.add_zero, Nat.add_assoc, Nat.add_comm 1,
        List.singleton_append]
    rw [hlen, hseen]
    refine ⟨t, m', hfirst.append hrest, ht, ?_⟩
    rw [hcells, Memory.prefixFrom_write hm, List.append_assoc, List.singleton_append]

/-- A delimiter after bytes ends the frame: its outcome is the decoding of the bytes accumulated (40 R104). -/
theorem Accumulating.hears_end (h : Accumulating c m n (c.delim :: q) s) (hn : n ≠ 0) (hcap : n ≤ c.rxCap)
    (hraw : Memory.prefixFrom m 0 n = raw) :
    ∃ t, Hears s [seenEnd (frameOutcome c raw)] t ∧ Waiting c m q t ∧ t.result = some (frameOutcome c raw).2 ∧
      t.errPhy = (frameOutcome c raw).1 := by
  obtain ⟨rfl, hsync, rfl, rfl, hq⟩ := h
  exact ⟨_, .of_row (.frameEnd hq hsync hn hraw) hcap rfl, ⟨rfl, ⟨rfl, rfl⟩, rfl, rfl⟩, rfl, rfl⟩

/-! ### Whole streams -/

/-- What the host sees over noise, a delimiter, a raw frame and a delimiter. -/
def streamSeen (c : SessionConfig) (noise raw : List Byte) : List Seen :=
  List.replicate noise.length (seenNone .noiseData false 0) ++ [seenNone .noError true 0] ++
    (List.range raw.length).map (fun i => seenNone .noError true (i + 1)) ++
    [seenEnd (frameOutcome c raw)]

theorem streamSeen_length (c : SessionConfig) (noise raw : List Byte) :
    (streamSeen c noise raw).length = noise.length + raw.length + 2 := by
  simp only [streamSeen, List.length_append, List.length_replicate, List.length_map, List.length_range,
    List.length_singleton]
  omega

theorem Waiting.hears_stream (h : Waiting c m (noise ++ [c.delim] ++ raw ++ [c.delim]) s) (hm : Memory.wf m)
    (hnoise : c.delim ∉ noise) (hraw : c.delim ∉ raw) (hpos : 1 ≤ raw.length) (hfits : raw.length ≤ c.rxCap) :
    ∃ t, Hears s (streamSeen c noise raw) t ∧ t.NoSync ∧ t.rxQueue = [] ∧
      t.result = some (frameOutcome c raw).2 ∧ t.errPhy = (frameOutcome c raw).1 := by
  rw [List.append_assoc, List.append_assoc] at h
  obtain ⟨s1, hears1, h1⟩ := h.hears_noise hnoise
  obtain ⟨s2, hears2, h2⟩ := h1.hears_delim
  obtain ⟨s3, m', hears3, h3, hcells⟩ := h2.hears_bytes (raw := raw) hm hraw (by omega)
  rw [Nat.zero_add] at h3 hcells
  obtain ⟨s4, hears4, h4, hresult, hslot⟩ := h3.hears_end (raw := raw) (by omega) hfits hcells
  simp only [Nat.zero_add] at hears3
  exact ⟨s4, ((hears1.append hears2).append hears3).append hears4, h4.noSync, h4.rxQueue, hresult, hslot⟩

/-- Settles O57: `Waiting.hears_stream`, counted. -/
theorem wholeStream : Obligations.WholeStream := by
  intro s noise raw hm hidle hq hnoise hraw hpos hfits
  obtain ⟨t, hears, hnoSync, hempty, -, -⟩ :=
    Waiting.hears_stream ⟨rfl, hidle, rfl, hq⟩ hm hnoise hraw hpos hfits
  exact ⟨t, hears.receiveRun_eq (streamSeen_length s.cfg noise raw).symm, hnoSync, hempty⟩

/-- Settles O59: the opening delimiter is a second one, the frame's bytes are noise, the closing delimiter starts. -/
theorem phaseSlipLosesFrame : Obligations.PhaseSlipLosesFrame := by
  intro s raw rest hsync hacc hq hraw
  rw [List.append_assoc, List.append_assoc] at hq
  have h : Accumulating s.cfg s.rxbuf 0 (s.cfg.delim :: (raw ++ (s.cfg.delim :: rest))) s :=
    ⟨rfl, hsync, hacc, rfl, hq⟩
  obtain ⟨s1, hears1, h1⟩ := h.hears_second_delim
  obtain ⟨s2, hears2, h2⟩ := h1.hears_noise hraw
  obtain ⟨t, hears3, ht⟩ := h2.hears_delim
  exact ⟨t, ((hears1.append hears2).append hears3).receiveRun_eq (by simp), ht.sync, ht.acc, ht.rxQueue⟩

/-! ### From a transmitter to a receiver -/

/-- A MAC frame of the largest payload fits the receiver's buffer, with room for its overhead (00 R7). -/
theorem SessionConfig.payloadMax_add_four_le_rxCap (c : SessionConfig) : c.payloadMax + 4 ≤ c.rxCap := by
  cases hmode : c.mode with
  | stuff => rw [SessionConfig.rxCap_of_stuff hmode]; omega
  | esc => rw [SessionConfig.rxCap_of_esc hmode]; omega

/-- A frame of 1 to PHY_DEC_MAX bytes is delivered (40 R109). -/
theorem endResult_ok {f : List Byte} (hpos : 1 ≤ f.length) (hmax : f.length ≤ c.phyDecMax) :
    endResult c (.ok f) = (.noError, .frame f) := by
  rw [endResult, if_neg hmax.not_gt, if_neg (Nat.one_le_iff_ne_zero.mp hpos)]

/-- TX_PHY whose writes are all taken whole adds the wire form of its encoding to the wire (43 R171). -/
theorem txPhy_wire {a a' : State} {p wire : List Byte} (hcap : p.length ≤ a.cfg.rxCap)
    (henc : Config.prims.encode a.cfg.mode p = some raw) (hreplies : a.writeReplies = [])
    (hexec : exec (.txPhy p p.length) a = .next a') (hwire : wireOf a'.lineLog = wireOf a.lineLog ++ wire) :
    wire = [a.cfg.delim] ++ raw ++ [a.cfg.delim] := by
  have hsends := txPhySends.2 a p raw p.length hcap le_rfl (by rwa [List.take_length]) (by rw [hreplies]; trivial)
  obtain rfl := Host.Outcome.next.inj (hexec.symm.trans hsends)
  simp only [wireOf, List.flatMap_append] at hwire
  simpa [LineEvent.onWire] using (List.append_cancel_left hwire).symm

/-- Settles O58: the wire is a stream without noise whose raw frame is the payload's encoding, which fits the buffer and
which the decode inverts. -/
theorem transmitReceiveRoundTrip : Obligations.TransmitReceiveRoundTrip := by
  intro a a' b p wire hm hidle hmode hmax hdec hpos hp hreplies hexec hwire hq
  have hcap : p.length ≤ a.cfg.rxCap := by
    have := a.cfg.payloadMax_add_four_le_rxCap
    omega
  obtain ⟨raw, henc⟩ := encode_total Config.prims_lawful hcap
  have hdelim : a.cfg.delim = b.cfg.delim := by rw [SessionConfig.delim, SessionConfig.delim, hmode]
  have hframe : wire = [b.cfg.delim] ++ raw ++ [b.cfg.delim] := hdelim ▸ txPhy_wire hcap henc hreplies hexec hwire
  obtain ⟨-, -, hnonempty⟩ := encode_length Config.prims_lawful hcap henc
  rw [← hmode] at henc
  obtain ⟨t, hears, hnoSync, -, hresult, hslot⟩ :=
    Waiting.hears_stream (noise := []) (raw := raw) ⟨rfl, hidle, rfl, hq.trans hframe⟩ hm List.not_mem_nil
      (encode_clean Config.prims_lawful henc) (hnonempty hpos) (encode_fits Config.prims_lawful hp henc)
  rw [frameOutcome, decode_encode Config.prims_lawful henc, endResult_ok hpos (hdec ▸ hp)] at hresult hslot
  refine ⟨_, t, hears.receiveRun_eq ?_, hresult, hslot, hnoSync⟩
  rw [streamSeen_length, hframe]
  simp

end Sys2Proof.Machine
end

section
/-! TX_MAC and PKT_TX past their size checks (43 R174, R175): the frame each hands down, and the verdict it makes of the
bracketed sequence's outcome; and the failures of encode and decode (43 R172, 40 R111). -/
namespace Sys2Proof.Machine

variable {P : Primitives} {s : State} {dst hi lo : Byte} {bytes raw d : List Byte} {size : Nat}

/-! ### The trailer (30 R74, R75) -/

theorem bigEndian_trailer (c : Word16) : bigEndian (c.extractLsb' 8 8) (c.extractLsb' 0 8) = c := by
  apply BitVec.eq_of_toNat_eq
  have := c.isLt
  rw [bigEndian_toNat, BitVec.extractLsb'_toNat, BitVec.extractLsb'_toNat, Nat.shiftRight_eq_div_pow,
    Nat.shiftRight_eq_div_pow]
  omega

/-- Settles O10: a payload as data and two bytes, and a checksum as its two bytes. -/
theorem trailerBigEndian : Obligations.TrailerBigEndian := by
  refine ⟨fun d hi lo => ⟨appData_append_pair d hi lo, ?_⟩, fun d c => ?_⟩
  · rw [rxChecksum_append_pair, bigEndian_toNat]
  · rw [trailer, rxChecksum_append_pair, bigEndian_trailer]

/-- The high byte comes first in the value of a trailer (20 R54). -/
theorem trailer_toNat (c : Word16) : (c.extractLsb' 8 8).toNat * 256 + (c.extractLsb' 0 8).toNat = c.toNat := by
  rw [← bigEndian_toNat, bigEndian_trailer]

/-- The two bytes of a trailer are determined by its value. -/
theorem trailer_eq_pair {c : Word16} (h : hi.toNat * 256 + lo.toNat = c.toNat) : trailer c = [hi, lo] := by
  have hvalue := trailer_toNat c
  have hlo := lo.isLt
  have hlo' := (c.extractLsb' 0 8).isLt
  have hhiEq : c.extractLsb' 8 8 = hi := BitVec.eq_of_toNat_eq (by omega)
  have hloEq : c.extractLsb' 0 8 = lo := BitVec.eq_of_toNat_eq (by omega)
  rw [trailer, hhiEq, hloEq]

theorem withTrailer_eq_append_pair (h : hi.toNat * 256 + lo.toNat = (P.checksum seed d).toNat) :
    withTrailer P d = d ++ [hi, lo] := by
  rw [withTrailer, trailer_eq_pair h]

/-! ### The frame each layer hands down -/

/-- A MAC frame of at most PAYLOAD_MAX payload bytes passes TX_PHY's size check. -/
theorem macFrame_length_le_rxCap (c : SessionConfig) (dst src : Byte) {p : List Byte} (h : p.length ≤ c.payloadMax) :
    (dst :: src :: p).length ≤ c.rxCap := by
  have := c.payloadMax_add_four_le_rxCap
  rw [List.length_cons, List.length_cons]
  omega

/-- So it has an encoding. -/
theorem encode_macFrame_total (c : SessionConfig) (dst src : Byte) {p : List Byte} (h : p.length ≤ c.payloadMax) :
    ∃ raw, Config.prims.encode c.mode (dst :: src :: p) = some raw :=
  encode_total Config.prims_lawful (macFrame_length_le_rxCap c dst src h)

/-- And the encoding is not empty. -/
theorem encode_macFrame_pos {c : SessionConfig} {src : Byte} {p : List Byte} (h : p.length ≤ c.payloadMax)
    (henc : Config.prims.encode c.mode (dst :: src :: p) = some raw) : 0 < raw.length := by
  obtain ⟨-, -, hpos⟩ := encode_length Config.prims_lawful (macFrame_length_le_rxCap c dst src h) henc
  exact hpos (Nat.succ_pos _)

/-- TX_MAC of a size that passes the check is the bracketed sequence of its frame's encoding and the MAC verdict. -/
theorem txMac_of_encode (hmax : size ≤ s.cfg.payloadMax) (hlen : size ≤ bytes.length)
    (henc : P.encode s.cfg.mode (dst :: s.cfg.localAddr :: bytes.take size) = some raw) :
    txMac P dst bytes size s = afterTxPhy size (putOnLine raw s) := by
  have hframe : (macFrame dst s.cfg.localAddr (bytes.take size)).length = size + 2 := by
    rw [macFrame, List.length_cons, List.length_cons, List.length_take_of_le hlen]
  have hcap : size + 2 ≤ s.cfg.rxCap :=
    hframe ▸ macFrame_length_le_rxCap s.cfg dst s.cfg.localAddr (by rwa [List.length_take_of_le hlen])
  have hphy : txPhy P (macFrame dst s.cfg.localAddr (bytes.take size)) (size + 2) s = .next (putOnLine raw s) :=
    txPhy_of_encode hcap hframe.ge (by rwa [List.take_of_length_le hframe.le])
  rw [txMac, SessionConfig.macTxMax, if_neg hmax.not_gt, if_neg hlen.not_gt, hphy, andThen_next]

/-- PKT_TX of a size that passes the check is that of the data with its trailer, and the APP verdict. -/
theorem pktTx_of_encode (hmax : size + 2 ≤ s.cfg.payloadMax) (hlen : size ≤ bytes.length)
    (hck : hi.toNat * 256 + lo.toNat = (P.checksum seed (bytes.take size)).toNat)
    (henc : P.encode s.cfg.mode (dst :: s.cfg.localAddr :: (bytes.take size ++ [hi, lo])) = some raw) :
    pktTx P dst bytes size s = andThen (afterTxPhy (size + 2) (putOnLine raw s)) (afterTxMac size) := by
  have hpayload : (bytes.take size ++ [hi, lo]).length = size + 2 := by
    rw [List.length_append, List.length_take_of_le hlen]
    rfl
  have hmac : txMac P dst (bytes.take size ++ [hi, lo]) (size + 2) s = afterTxPhy (size + 2) (putOnLine raw s) :=
    txMac_of_encode hmax hpayload.ge (by rwa [List.take_of_length_le hpayload.le])
  rw [pktTx, if_neg hmax.not_gt, if_neg hlen.not_gt, withTrailer_eq_append_pair hck, hmac]

/-! ### The verdicts -/

theorem afterTxPhy_of_sent {n : Nat} (h : s.result = some (.sent n)) (hn : 0 < n) :
    afterTxPhy size s = .next (s.finish .mac (.sent size)) := by
  simp only [afterTxPhy, h, if_pos hn]

theorem afterTxPhy_of_err {e : ErrorKind} (h : s.result = some (.err e)) :
    afterTxPhy size s = .next (s.raise .mac .writeError) := by
  simp only [afterTxPhy, h]

/-- Settles O42: the bracketed sequence taken whole answers a positive count. -/
theorem txMacSends : Obligations.TxMacSends := by
  refine ⟨fun s dst payload size hmax _ => encode_macFrame_total s.cfg dst s.cfg.localAddr
    ((List.length_take_le size payload).trans hmax), fun s dst payload raw size hmax hlen henc hwhole => ?_⟩
  have hpos : 0 < raw.length := encode_macFrame_pos (by rwa [List.length_take_of_le hlen]) henc
  calc exec (.txMac dst payload size) s
    _ = afterTxPhy size (putOnLine raw s) := txMac_of_encode hmax hlen henc
    _ = .next ((putOnLine raw s).finish .mac (.sent size)) :=
      afterTxPhy_of_sent (by rw [putOnLine_full hwhole]) hpos
    _ = _ := by rw [putOnLine_full hwhole]; rfl

/-- Settles O43: the same below the APP layer, whose payload is the data with its trailer. -/
theorem pktTxSends : Obligations.PktTxSends := by
  refine ⟨fun s dst data size hmax hlen => ?_, fun s dst hi lo data raw size hmax hlen hck henc hwhole => ?_⟩
  · obtain ⟨raw, henc⟩ := encode_macFrame_total s.cfg dst s.cfg.localAddr
      (p := withTrailer Config.prims (data.take size)) (by rwa [withTrailer_length, List.length_take_of_le hlen])
    exact ⟨raw, _, _, trailer_toNat _, henc⟩
  · have hpos : 0 < raw.length :=
      encode_macFrame_pos (by rwa [List.length_append, List.length_take_of_le hlen]) henc
    calc exec (.pktTx dst data size) s
      _ = andThen (afterTxPhy (size + 2) (putOnLine raw s)) (afterTxMac size) := pktTx_of_encode hmax hlen hck henc
      _ = .next (((putOnLine raw s).finish .mac (.sent (size + 2))).finish .app (.sent (size + 2))) := by
        rw [afterTxPhy_of_sent (by rw [putOnLine_full hwhole]) hpos]
        rfl
      _ = _ := by rw [putOnLine_full hwhole]; rfl

/-- Settles O46: the sequence cut short answers an error, which each layer above turns into its own WriteError. -/
theorem writeErrorPropagates : Obligations.WriteErrorPropagates := by
  intro s dst bytes size raw piece k pre post r hlen hpiece hreplies hk hwhole hshort
  have hline := putOnLine_short hk hpiece hwhole hreplies hshort
  have hmac : ∀ n, afterTxPhy n (putOnLine raw s) = .next ((putOnLine raw s).raise .mac .writeError) :=
    fun n => afterTxPhy_of_err (by rw [hline])
  refine ⟨fun hmax henc => ?_, fun hi lo hmax hck henc => ?_⟩
  · calc exec (.txMac dst bytes size) s
      _ = afterTxPhy size (putOnLine raw s) := txMac_of_encode hmax hlen henc
      _ = .next ((putOnLine raw s).raise .mac .writeError) := hmac size
      _ = _ := by rw [hline]; rfl
  · calc exec (.pktTx dst bytes size) s
      _ = andThen (afterTxPhy (size + 2) (putOnLine raw s)) (afterTxMac size) := pktTx_of_encode hmax hlen hck henc
      _ = .next (((putOnLine raw s).raise .mac .writeError).raise .app .writeError) := by
        rw [hmac (size + 2)]
        rfl
      _ = _ := by rw [hline]; rfl

/-! ### Failures of encode and decode -/

/-- Settles O44: the sizes pass, so the encode's failure is what TX_PHY answers. -/
theorem txPhyEncodeFailure : Obligations.TxPhyEncodeFailure := by
  refine ⟨fun P s payload size hcap hlen henc => ?_, fun _ _ _ => rfl⟩
  calc txPhy P payload size s
    _ = .next (s.raise .phy .encodeError) := by rw [txPhy, if_neg hcap.not_gt, if_neg hlen.not_gt, henc]
    _ = _ := rfl

/-- A failing decode is the class DECODE_ERR, and no other answer of the codec is (30 R81). -/
theorem endDecodeErr_of_decode (P : Primitives) (raw : List Byte) (s : State) :
    endDecodeErr P raw s =
      if P.decode s.cfg.mode raw = .fail then .next (s.raise .phy .decodeError)
      else .refused (.classDoesNotApply "END.DECODE_ERR") := by
  obtain ⟨hfail, -, -, -⟩ := endClass_table P s.cfg raw
  simp only [endDecodeErr, whenClass, decide_eq_true_eq, hfail]

/-! A namespace of its own: the model's row `endDecodeErr` has the name that the theorem takes. -/
namespace PhyReceive

/-- Settles O25: `endDecodeErr_of_decode` at each of the codec's answers. -/
theorem endDecodeErr : Obligations.EndDecodeErr := by
  refine ⟨fun P s raw hfail => (endDecodeErr_of_decode P raw s).trans (if_pos hfail), fun s raw => ?_⟩
  refine (endDecodeErr_of_decode Config.prims raw s).trans ?_
  cases Config.prims.decode s.cfg.mode raw <;> rfl

end PhyReceive

/-! ### One flipped bit (42 R160, 44 R204) -/

/-- Flipping a bit of a byte changes it. -/
theorem flipBit_ne (x : Byte) {k : Nat} (hk : k < 8) : x ^^^ BitVec.ofNat 8 (2 ^ k) ≠ x := by
  have hbit : BitVec.ofNat 8 (2 ^ k) ≠ 0 := by
    revert hk k
    decide
  intro h
  have hcancel := congrArg (x ^^^ ·) h
  exact hbit (by simpa [← BitVec.xor_assoc] using hcancel)

/-- A trailer that differs from the checksum of its data is a checksum error, before the source is asked (42 R153). -/
theorem performApp_of_ne (src : Byte) (bcast : Bool) (filter : Option Byte) (s : State)
    (h : bigEndian hi lo ≠ P.checksum seed d) :
    performApp P src bcast (d ++ [hi, lo]) filter s =
      .next { s with errApp := .checksumError, result := some (.err .checksumError) } := by
  have hnone : (d ++ [hi, lo]).length ≠ 0 := by simp
  have hrunt : (d ++ [hi, lo]).length ≠ 1 := by simp
  have happ : appResult P filter (some (.accept src bcast (d ++ [hi, lo]))) =
      (.checksumError, .err .checksumError) := by
    simp only [appResult, rxChecksum_append_pair, appData_append_pair, if_neg hnone, if_neg hrunt, if_pos h]
  rw [performApp_eq, happ]

/-- Two bytes are determined by their big-endian value. -/
theorem bigEndian_inj {hi' lo' : Byte} (h : bigEndian hi lo = bigEndian hi' lo') : hi = hi' ∧ lo = lo' := by
  have hvalue := congrArg BitVec.toNat h
  rw [bigEndian_toNat, bigEndian_toNat] at hvalue
  have hlo := lo.isLt
  have hlo' := lo'.isLt
  exact ⟨BitVec.eq_of_toNat_eq (by omega), BitVec.eq_of_toNat_eq (by omega)⟩

/-- The last two bytes of a list that has them. -/
theorem exists_eq_append_pair {l : List Byte} (h : 2 ≤ l.length) : ∃ d hi lo, l = d ++ [hi, lo] := by
  obtain rfl | ⟨m, lo, rfl⟩ := l.eq_nil_or_concat'
  · simp at h
  obtain rfl | ⟨d, hi, rfl⟩ := m.eq_nil_or_concat'
  · simp at h
  exact ⟨d, hi, lo, by simp⟩

/-- A payload that verifies has the checksum of its data as its trailer (30 R75). -/
theorem bigEndian_of_verifies (h : rxChecksum (d ++ [hi, lo]) = calcChecksum P (d ++ [hi, lo])) :
    bigEndian hi lo = P.checksum seed d := by
  rwa [rxChecksum_append_pair, calcChecksum, appData_append_pair] at h

/-- Settles O60: the flipped byte stands before the last two, and the checksum of the data changes, or it is the
trailer's high or low byte, and the trailer changes. -/
theorem singleBitFlipDetected : Obligations.SingleBitFlipDetected := by
  intro P hdetects s src bcast filter p p' hlen hck hflip
  obtain ⟨pre, post, x, k, hk, rfl, rfl⟩ := hflip
  have hx := flipBit_ne x hk
  match post with
  | [] =>
    obtain rfl | ⟨d, hi, rfl⟩ := pre.eq_nil_or_concat'
    · simp at hlen
    rw [List.append_assoc, List.singleton_append] at hck ⊢
    refine performApp_of_ne src bcast filter s fun h => hx ?_
    exact (bigEndian_inj (h.trans (bigEndian_of_verifies hck).symm)).2
  | [lo] =>
    refine performApp_of_ne src bcast filter s fun h => hx ?_
    exact (bigEndian_inj (h.trans (bigEndian_of_verifies hck).symm)).1
  | y :: z :: rest =>
    obtain ⟨mid, hi, lo, hsplit⟩ := exists_eq_append_pair (l := y :: z :: rest) (by simp)
    rw [hsplit, ← List.cons_append, ← List.append_assoc] at hck ⊢
    refine performApp_of_ne src bcast filter s fun h => ?_
    exact hdetects _ _ ⟨pre, mid, x, k, hk, rfl, rfl⟩ ((bigEndian_of_verifies hck).symm.trans h)

end Sys2Proof.Machine
end
